-- ==== Sys2Proof/Word.lean ====
section
/-! DEFINITION. The sizes of data the spec names (00_scope R7, R13; 20_memory R47) and the fields of an
instruction word (30_encoding R61 to R63) as bit vectors. Nothing here computes. -/

namespace Sys2Proof

/-- A 32-bit word: a general register, `pc`, `HI`, `LO`, an address, an instruction word (00_scope R7). -/
abbrev Word := BitVec 32

/-- A byte, the unit memory is addressed in (10_state R34). -/
abbrev Byte := BitVec 8

/-- A general register specifier: the 5-bit fields `rs`, `rt`, `rd` (30_encoding R61, R69). -/
abbrev RegIdx := BitVec 5

/-- The 5-bit shift amount field `shamt` (30_encoding R61). -/
abbrev Shamt := BitVec 5

/-- The 16-bit immediate field of an I-type word (30_encoding R62). -/
abbrev Imm16 := BitVec 16

/-- The 26-bit target field of a J-type word (30_encoding R63). -/
abbrev Target26 := BitVec 26

/-- The widths of a memory access: byte, halfword, word (20_memory R47). -/
inductive Width where
  | byte
  | half
  | word
  deriving DecidableEq, Repr

/-- How many bytes an access of this width touches: the `n` of 20_memory R40. -/
@[reducible] def Width.bytes : Width → Nat
  | .byte => 1
  | .half => 2
  | .word => 4

/-- How many bits an access of this width moves: `8n` (20_memory R41). -/
@[reducible] def Width.bits : Width → Nat
  | .byte => 8
  | .half => 16
  | .word => 32

end Sys2Proof
end

