-- ==== Sys2Proof/Machine/Flags.lean ====
section
/-! DEFINITION. The machine has no flags and no condition codes (10_state R30). What other machines keep in
flags is computed here where an instruction needs it: signed overflow (40_arithmetic R92), less-than
(44_jump_compare R180, R181), the comparisons of the branches (43_compare_branch R162), and the operands of a
division whose result is unpredictable (40_arithmetic R95). -/

namespace Sys2Proof.Machine

/-- The exact value is outside -2^31 .. 2^31-1 (40 R92). -/
def outsideSigned (v : Int) : Bool :=
  decide (v < -(2 ^ 31)) || decide (2 ^ 31 - 1 < v)

/-- Signed overflow of an addition (40 R92). -/
def addOverflows (a b : Word) : Bool :=
  outsideSigned (a.toInt + b.toInt)

/-- Signed overflow of a subtraction (40 R92). -/
def subOverflows (a b : Word) : Bool :=
  outsideSigned (a.toInt - b.toInt)

/-- `signed(a) < signed(b)` (44 R180). -/
def lessSigned (a b : Word) : Bool :=
  decide (a.toInt < b.toInt)

/-- `unsigned(a) < unsigned(b)` (44 R181). -/
def lessUnsigned (a b : Word) : Bool :=
  decide (a.toNat < b.toNat)

/-- The result of a compare, "32-bit 0 or 1" (44 R180, R181). -/
def setWord (c : Bool) : Word :=
  if c then 1#32 else 0#32

/-- `signed(a) <= 0` (43 R162, R166). -/
def leZero (a : Word) : Bool :=
  decide (a.toInt ≤ 0)

/-- `signed(a) > 0` (43 R162, R167). -/
def gtZero (a : Word) : Bool :=
  decide (0 < a.toInt)

/-- `signed(a) < 0` (43 R162, R168, R170). -/
def ltZero (a : Word) : Bool :=
  decide (a.toInt < 0)

/-- `signed(a) >= 0` (43 R162, R169, R171). -/
def geZero (a : Word) : Bool :=
  decide (0 ≤ a.toInt)

/-- The operands for which `div` is undefined: a zero divisor, or 0x80000000 by 0xFFFFFFFF (40 R95, R108). -/
def divUndefined (a b : Word) : Bool :=
  b == 0#32 || (a == 0x80000000#32 && b == 0xFFFFFFFF#32)

/-- The operands for which `divu` is undefined: a zero divisor (40 R95, R109). -/
def divuUndefined (b : Word) : Bool :=
  b == 0#32

end Sys2Proof.Machine
end

