-- ==== Sys2Proof/Config.lean ====
section
/-! DEFINITION. The implementation parameters the spec leaves open (00_scope R8), as plain data; the values
State.reset gives them and the unspecified launch values; and the one free value, `unpredictable_32()`
(00_scope R11). -/

namespace Sys2Proof

/-- `ENDIAN` (00_scope R8, 20_memory R43). -/
inductive Endian where
  | big
  | little
  deriving DecidableEq, Repr

/-- `BRANCH_OFFSET_SHIFT`, "0 or 2" (00_scope R8, 30_encoding R66): `byteOffset` is 0, the source's reading;
`wordOffset` is 2. -/
inductive BranchShift where
  | byteOffset
  | wordOffset
  deriving DecidableEq, Repr

/-- A run of byte addresses, `base` up to but not including `base + size`. -/
structure Region where
  base : Nat
  size : Nat
  deriving DecidableEq, Repr

/-- The parameters of 00_scope R8 that a step reads, fixed for the whole run (20_memory R43). `refused` is
`MEM_VALID` as plain data: the regions whose addresses it refuses (log entry 2). -/
structure Params where
  endian      : Endian
  refused     : List Region
  branchShift : BranchShift
  endPc       : Word
  deriving DecidableEq, Repr

/-- `ENTRY_PC` at State.reset: the value the spec's examples use (00_scope R8, log entry 5). -/
def Config.entryPc : Word := 0x00010000#32

/-- `END_PC` at State.reset. DESIGN CHOICE, unsafe for a claim about State.reset alone (log entry 4): the spec says "per
program"; this is an address no instruction can stand at. -/
def Config.endPc : Word := 0xFFFFFFFF#32

/-- The parameters at State.reset. `byteOffset` and "every address valid" are the spec's defaults (00_scope
R8). DESIGN CHOICE (log entry 1): big byte order, for which the spec gives no default. -/
def Config.params : Params :=
  { endian := .big, refused := [], branchShift := .byteOffset, endPc := Config.endPc }

/-- What `x[1]` to `x[31]`, `HI`, `LO` and `f[0]` to `f[31]` hold at State.reset. DESIGN CHOICE, unsafe (log
entry 6): 10_state R36 leaves them unspecified and says a model must not choose zero. -/
def Config.launchWord : Word := 0x2BADBAD0#32

/-- What a byte of memory that nothing has written reads as. DESIGN CHOICE, unsafe (log entry 7): 10_state
R36 leaves it unspecified and says a model must not choose zero. -/
def Config.unlistedByte : Byte := 0xFF#8

/-- The values `unpredictable_32()` draws (00_scope R11, 40_arithmetic R95, 93 U1): a FREE VALUE with no body.
Draw number `n` of a run is `unpredictable32 n`; State.draws counts the draws (log entry 8). -/
opaque Config.unpredictable32 : Nat → Word

end Sys2Proof
end

