-- ==== Sys2Proof/Machine/Bytes.lean ====
section
/-! DEFINITION. Byte order, decided once: how the bytes at rising addresses make up a value (20_memory R41)
and which byte of a value goes to which address (20_memory R42). Fetch, loads, stores and the loader all
use these two. -/

namespace Sys2Proof.Machine

/-- The value read from the bytes `b 0`, `b 1`, … at rising addresses (20_memory R41). -/
def joinBytes (e : Endian) (w : Width) (b : Nat → Byte) : BitVec w.bits :=
  match w, e with
  | .byte, _ => b 0
  | .half, .big => b 0 ++ b 1
  | .half, .little => b 1 ++ b 0
  | .word, .big => b 0 ++ b 1 ++ b 2 ++ b 3
  | .word, .little => b 3 ++ b 2 ++ b 1 ++ b 0

/-- The byte of `v` that goes to the `i`-th address of the access: `v[8(n-i)-1 : 8(n-i-1)]` when big,
`v[8i+7 : 8i]` when little (20_memory R42). -/
def byteOf (e : Endian) (w : Width) (v : BitVec w.bits) (i : Nat) : Byte :=
  match e with
  | .big => v.extractLsb' (8 * (w.bytes - i - 1)) 8
  | .little => v.extractLsb' (8 * i) 8

/-- The bytes of `v` in the order of rising addresses (20_memory R42). -/
def splitBytes (e : Endian) (w : Width) (v : BitVec w.bits) : List Byte :=
  (List.range w.bytes).map (byteOf e w v)

end Sys2Proof.Machine
end

