-- ==== Sys2Proof/Machine/State.lean ====
section
/-! DEFINITION. The state of MIPS-L5 as plain data: the tuple of 10_state R20, the parameters of 00_scope R8
that a step reads, and the model's own counter of unpredictable draws. Also the reasons a step can stop, the
launch arguments (60_exceptions R228) and the state at reset (10_state R36, 70_reset R241). -/

namespace Sys2Proof.Machine

/-- What an access is for; the word in `AddressError(fetch, a)` and its like (60_exceptions R201). -/
inductive AccessKind where
  | fetch
  | load
  | store
  deriving DecidableEq, Repr

/-- The fault causes of 60_exceptions R201. -/
inductive Cause where
  | addressError (k : AccessKind)
  | busError (k : AccessKind)
  | reservedInstruction
  | integerOverflow
  deriving DecidableEq, Repr

/-- A `raise E(info)` (00_scope R11): the cause and the `info` of 60_exceptions R201, which is an address, the
reserved word, or nothing (`IntegerOverflow`: "none beyond epc"). -/
structure Raise where
  cause : Cause
  info  : Option Word
  deriving DecidableEq, Repr

/-- The run status (10_state R20, 60_exceptions R210, R225). -/
inductive Status where
  | running
  | ended
  | faulted (cause : Cause) (epc : Word) (info : Option Word)
  deriving DecidableEq, Repr

/-- Memory (10_state R34): the listed bytes, by rising address; see Memory.wf for the canonical form. -/
abbrev Memory := List Host.Cell

/-- The state of the machine. `gpr` holds `x[1]` to `x[31]` in its places 0 to 30: "31 x 32-bit GPRs (R0=0)";
`x[0]` is the constant 0 and is not stored (10_state R21, 90_conflicts C15; log entry 12). -/
structure State where
  /-- `x[1]` to `x[31]` (10_state R21). -/
  gpr    : Vector Word 31
  /-- The program counter (10_state R25). -/
  pc     : Word
  /-- The upper half of a product, or a remainder (10_state R29). -/
  hi     : Word
  /-- The lower half of a product, or a quotient (10_state R29). -/
  lo     : Word
  /-- `f[0]` to `f[31]`, which no instruction touches (10_state R32). -/
  fpr    : Vector Word 32
  /-- The 2^32 bytes (10_state R34). -/
  mem    : Memory
  /-- The run status (10_state R20). -/
  status : Status
  /-- The parameters of the run (00_scope R8). -/
  params : Params
  /-- The model's own: how many unpredictable values have been drawn (log entries 8 and 9). -/
  draws  : Nat
  deriving DecidableEq, Repr

/-- Why `step` answers no next state. Both are the spec's own end of a run, not a gap in the model. -/
inductive Fault where
  /-- Raised by `step` at a state whose status is `Faulted(cause, epc, info)`, which "has no further step"
  (60_exceptions R210). Safe: the spec stops here too. -/
  | stoppedByFault (cause : Cause) (epc : Word) (info : Option Word)
  /-- Raised by `step` at a state whose status is `Ended`, which "has no further step" (60_exceptions R225).
  Safe: the spec stops here too. -/
  | runIsOver
  deriving DecidableEq, Repr

/-- Instructions without a meaning. No arm of `exec` answers it: all 47 instructions are modelled. -/
inductive Refusal where
  /-- An instruction rejected by its table mnemonic, in `exec`'s arm only. Safe: nothing is claimed of it. -/
  | notModelled (mnemonic : String)
  deriving DecidableEq, Repr

/-- What a step, and a meaning, answers. -/
abbrev Result := Host.Outcome State Fault Refusal

/-- The launch arguments (60_exceptions R228, 70_reset R240, R241): the parameters, `ENTRY_PC`, the initial
values 10_state R36 leaves unspecified, and the memory image the loader writes, cell by cell. -/
structure Launch where
  params  : Params
  entryPc : Word
  gpr     : Vector Word 31
  hi      : Word
  lo      : Word
  fpr     : Vector Word 32
  image   : List Host.Cell
  deriving DecidableEq, Repr

/-- The launch behind State.reset: the spec's example parameters, no image, and the named value in every
register the spec leaves unspecified (log entries 1 to 7). -/
def Launch.reset : Launch :=
  { params := Config.params
    entryPc := Config.entryPc
    gpr := Vector.replicate 31 Config.launchWord
    hi := Config.launchWord
    lo := Config.launchWord
    fpr := Vector.replicate 32 Config.launchWord
    image := [] }

/-- The machine right after reset (10_state R36, 70_reset R241): the launch of Launch.reset. -/
def State.reset : State :=
  { gpr := Launch.reset.gpr
    pc := Launch.reset.entryPc
    hi := Launch.reset.hi
    lo := Launch.reset.lo
    fpr := Launch.reset.fpr
    mem := []
    status := .running
    params := Launch.reset.params
    draws := 0 }

end Sys2Proof.Machine
end

