-- ==== Sys2Proof/Machine/Ops.lean ====
section
/-! DEFINITION. The named operations over registers and memory (00_scope R11, 10_state R21 to R29, 20_memory
R40 to R48), and taking a fault (60_exceptions R210). Every meaning goes through these. -/

namespace Sys2Proof.Machine

/-! ### Memory as one array of bytes -/

/-- The byte at an address (10_state R34). An address that is not listed reads as Config.unlistedByte. The list
is read in its rising order. -/
def Memory.read : Memory → Nat → Byte
  | [], _ => Config.unlistedByte
  | (k, v) :: rest, a =>
    if a = k then v else if a < k then Config.unlistedByte else Memory.read rest a

/-- `M[a] <- b`, keeping the canonical form: rising addresses, and no entry that holds what an unlisted address
reads as. -/
def Memory.write : Memory → Nat → Byte → Memory
  | [], a, b => if b = Config.unlistedByte then [] else [(a, b)]
  | (k, v) :: rest, a, b =>
    if a < k then
      if b = Config.unlistedByte then (k, v) :: rest else (a, b) :: (k, v) :: rest
    else if a = k then
      if b = Config.unlistedByte then rest else (a, b) :: rest
    else (k, v) :: Memory.write rest a b

/-- The bytes of the list to `a`, `a + 1`, … in turn (20_memory R42). -/
def Memory.writeBytes : Memory → Nat → List Byte → Memory
  | m, _, [] => m
  | m, a, b :: bs => Memory.writeBytes (m.write a b) (a + 1) bs

/-- The cells of a memory image, written in turn (60_exceptions R228). -/
def Memory.writeCells : Memory → List Host.Cell → Memory
  | m, [] => m
  | m, (a, b) :: cs => Memory.writeCells (m.write a b) cs

/-- The canonical form: addresses strictly rising, all inside the 2^32 bytes of 10_state R34, and no entry equal
to what an unlisted address reads as. -/
def Memory.wf : Memory → Bool
  | [] => true
  | (k, v) :: rest =>
    decide (k < 2 ^ 32) && decide (v ≠ Config.unlistedByte) &&
      rest.all (fun c => decide (k < c.1)) && Memory.wf rest

/-! ### Registers -/

/-- `x[i]` (00_scope R11): `x[0]` is always 0 (10_state R21). -/
def State.readReg (s : State) (i : RegIdx) : Word :=
  if i = 0#5 then 0#32 else (s.gpr[i.toNat - 1]?).getD 0#32

/-- `x[i] <- v` (00_scope R11): a write with `i = 0` is discarded (10_state R22). -/
def State.writeReg (s : State) (i : RegIdx) (v : Word) : State :=
  { s with gpr := if i = 0#5 then s.gpr else s.gpr.setIfInBounds (i.toNat - 1) v }

/-- `HI <- h; LO <- l` (00_scope R11, 10_state R29). -/
def State.writeHiLo (s : State) (h l : Word) : State :=
  { s with hi := h, lo := l }

/-- `pc <- t` (00_scope R11). -/
def State.setPc (s : State) (t : Word) : State :=
  { s with pc := t }

/-- The address of the next instruction in sequence, `pc + 4` modulo 2^32 (10_state R25, R27). It is also the
link value (44_jump_compare R185). -/
def State.nextPc (s : State) : Word :=
  s.pc + 4#32

/-- `pc <- pc + 4`, what a rule that does not write `pc` implies (10_state R25). -/
def State.advance (s : State) : State :=
  s.setPc s.nextPc

/-- Two draws of `unpredictable_32()` into `HI` and `LO` (40_arithmetic R95): the next two free values, and the
counter moved past both, so that no two draws of a run share an index (log entry 8). -/
def State.drawHiLo (s : State) : State :=
  { s with
    hi := Config.unpredictable32 s.draws
    lo := Config.unpredictable32 (s.draws + 1)
    draws := s.draws + 2 }

/-! ### Taking a fault, and the end of a run -/

/-- TAKING A FAULT (60_exceptions R210): the status becomes `Faulted(cause, epc, info)` with `epc` the address of
the instruction, for a fetch the bad `pc` itself (R202), and nothing else changes. There is no handler, and no
return from a fault exists to stand beside this (R212). -/
def State.takeFault (s : State) (r : Raise) : State :=
  { s with status := .faulted r.cause s.pc r.info }

/-- A meaning that raises (00_scope R11): it has no effect but the fault. -/
def State.raise (s : State) (r : Raise) : Result :=
  .next (s.takeFault r)

/-- The run is over (60_exceptions R225). -/
def State.endRun (s : State) : State :=
  { s with status := .ended }

/-- The generally known `ExcCode` numbers of 60_exceptions R201. "Given for reference only: no rule of the spec
reads it", and nothing in the model does. -/
def Cause.excCode : Cause → Nat
  | .addressError .fetch => 4
  | .addressError .load => 4
  | .addressError .store => 5
  | .busError .fetch => 6
  | .busError .load => 7
  | .busError .store => 7
  | .reservedInstruction => 10
  | .integerOverflow => 12

/-! ### Memory access -/

/-- `MEM_VALID(a)` (20_memory R48): no refused region holds the address. -/
def Params.memValid (p : Params) (a : Nat) : Bool :=
  p.refused.all fun r => !(decide (r.base ≤ a) && decide (a < r.base + r.size))

/-- `MEM_VALID` accepts every byte of the access (20_memory R41, R42). -/
def Params.allValid (p : Params) (a : Nat) (n : Nat) : Bool :=
  (List.range n).all fun i => Params.memValid p (a + i)

/-- The checks of an access, in their order: alignment, then `MEM_VALID` (20_memory R41, R42, R44, R46; 60 R209).
What is raised records the address (60 R201). -/
def State.accessCheck (s : State) (k : AccessKind) (w : Width) (addr : Word) : Option Raise :=
  if addr.toNat % w.bytes ≠ 0 then some ⟨.addressError k, some addr⟩
  else if Params.allValid s.params addr.toNat w.bytes then none
  else some ⟨.busError k, some addr⟩

/-- `MemRead(addr, n)` (20_memory R41); `k` says whether it is a fetch or a load. -/
def State.memRead (s : State) (k : AccessKind) (w : Width) (addr : Word) :
    Except Raise (BitVec w.bits) :=
  match s.accessCheck k w addr with
  | some r => .error r
  | none => .ok (joinBytes s.params.endian w fun i => s.mem.read (addr.toNat + i))

/-- `MemWrite(addr, n, v)` (20_memory R42): all bytes are written or, when the access raises, none. -/
def State.memWrite (s : State) (w : Width) (addr : Word) (v : BitVec w.bits) : Except Raise State :=
  match s.accessCheck .store w addr with
  | some r => .error r
  | none => .ok { s with mem := s.mem.writeBytes addr.toNat (splitBytes s.params.endian w v) }

/-- What the loader does with one word (60_exceptions R228): its bytes at `addr` in the byte order in force, with
none of the checks of an instruction's access. -/
def State.placeWord (s : State) (addr : Word) (v : Word) : State :=
  { s with mem := s.mem.writeBytes addr.toNat (splitBytes s.params.endian .word v) }

end Sys2Proof.Machine
end

