-- ==== Sys2Proof/Machine/Operands.lean ====
section
/-! DEFINITION. The operand forms (30_encoding R65 to R68; 42_data_transfer R140; 43_compare_branch R160;
44_jump_compare R182). -/

namespace Sys2Proof.Machine

/-- `sext_32(imm)`: the operand of `addi` and `addiu`, a displacement, a branch offset before its shift (30 R65). -/
def sextImm (imm : Imm16) : Word :=
  imm.signExtend 32

/-- `zext_32(imm)`: the operand of `andi`, `ori`, `xori` (30 R65, 41 R113). -/
def zextImm (imm : Imm16) : Word :=
  imm.zeroExtend 32

/-- `imm ‖ 0^16`: the operand of `lui` (30 R65, 42 R151). -/
def upperImm (imm : Imm16) : Word :=
  imm ++ 0#16

/-- The effective address `x[rs] + sext_32(imm)` modulo 2^32 (42 R140). -/
def State.effectiveAddress (s : State) (rs : RegIdx) (imm : Imm16) : Word :=
  s.readReg rs + sextImm imm

/-- The number of places `BRANCH_OFFSET_SHIFT` shifts by (00 R8, 30 R66). -/
def branchShiftAmount : BranchShift → Nat
  | .byteOffset => 0
  | .wordOffset => 2

/-- The target of a branch, `pc + 4 + (sext_32(imm) << BRANCH_OFFSET_SHIFT)` modulo 2^32 (30 R66, 43 R160). -/
def State.branchTarget (s : State) (imm : Imm16) : Word :=
  s.nextPc + (sextImm imm <<< branchShiftAmount s.params.branchShift)

/-- The address a target field names when `next` is the address after the jump: `next[31:28] ‖ target ‖ 00`, a word
address inside the 256 MiB region of `next` (30 R67). -/
def jumpAddress (next : Word) (target : Target26) : Word :=
  next.extractLsb' 28 4 ++ target ++ 0b00#2

/-- The target of `j` and `jal`; the region bits come from `pc + 4` (30 R67, 44 R182, R183). -/
def State.jumpTarget (s : State) (target : Target26) : Word :=
  jumpAddress s.nextPc target

/-- The amount of a variable shift, `x[rs][4:0]` (30 R68, 41 R114). -/
def State.shiftAmount (s : State) (rs : RegIdx) : Nat :=
  ((s.readReg rs).extractLsb' 0 5).toNat

end Sys2Proof.Machine
end

