-- ==== Sys2Proof/Machine/Arithmetic.lean ====
section
/-! DEFINITION. The arithmetic instructions (40_arithmetic R90 to R111). Every meaning reads its sources in the
state it is given, before anything is written (R97). -/

namespace Sys2Proof.Machine

/-- Write a general register and go on at `pc + 4`: the end of every register-writing rule that writes no `pc`. -/
def State.writeAndAdvance (s : State) (d : RegIdx) (v : Word) : Result :=
  .next (s.writeReg d v).advance

/-- Write `v`, or raise `IntegerOverflow` and write nothing (R91, 60_exceptions R204). -/
def State.writeUnlessOverflow (s : State) (d : RegIdx) (overflow : Bool) (v : Word) : Result :=
  if overflow then s.raise ⟨.integerOverflow, none⟩ else s.writeAndAdvance d v

/-- `HI`, `LO` receive bits 63:32 and 31:0 of a product (R93). -/
def State.writeProduct (s : State) (p : BitVec 64) : Result :=
  .next (s.writeHiLo (p.extractLsb' 32 32) (p.extractLsb' 0 32)).advance

/-- `add` (R100). -/
def execAdd (rd rs rt : RegIdx) (s : State) : Result :=
  s.writeUnlessOverflow rd (addOverflows (s.readReg rs) (s.readReg rt)) (s.readReg rs + s.readReg rt)

/-- `sub` (R101). -/
def execSub (rd rs rt : RegIdx) (s : State) : Result :=
  s.writeUnlessOverflow rd (subOverflows (s.readReg rs) (s.readReg rt)) (s.readReg rs - s.readReg rt)

/-- `addi` (R102). -/
def execAddi (rt rs : RegIdx) (imm : Imm16) (s : State) : Result :=
  s.writeUnlessOverflow rt (addOverflows (s.readReg rs) (sextImm imm)) (s.readReg rs + sextImm imm)

/-- `addu` (R103). -/
def execAddu (rd rs rt : RegIdx) (s : State) : Result :=
  s.writeAndAdvance rd (s.readReg rs + s.readReg rt)

/-- `subu` (R104). -/
def execSubu (rd rs rt : RegIdx) (s : State) : Result :=
  s.writeAndAdvance rd (s.readReg rs - s.readReg rt)

/-- `addiu` (R105): the immediate is SIGN-extended. -/
def execAddiu (rt rs : RegIdx) (imm : Imm16) (s : State) : Result :=
  s.writeAndAdvance rt (s.readReg rs + sextImm imm)

/-- `mult` (R106): the exact signed product as 64-bit two's complement. -/
def execMult (rs rt : RegIdx) (s : State) : Result :=
  s.writeProduct (BitVec.ofInt 64 ((s.readReg rs).toInt * (s.readReg rt).toInt))

/-- `multu` (R107): the exact unsigned product. -/
def execMultu (rs rt : RegIdx) (s : State) : Result :=
  s.writeProduct (BitVec.ofNat 64 ((s.readReg rs).toNat * (s.readReg rt).toNat))

/-- The quotient of `div`, truncated toward zero (R94). -/
def signedQuotient (a b : Word) : Int :=
  a.toInt.tdiv b.toInt

/-- `div` (R108): `LO` the quotient, `HI` the remainder `signed(a) - q * signed(b)`; two free values where R95
leaves them unpredictable, with no fault. -/
def execDiv (rs rt : RegIdx) (s : State) : Result :=
  let a := s.readReg rs
  let b := s.readReg rt
  if divUndefined a b then .next s.drawHiLo.advance
  else
    let q := signedQuotient a b
    .next (s.writeHiLo (BitVec.ofInt 32 (a.toInt - q * b.toInt)) (BitVec.ofInt 32 q)).advance

/-- `divu` (R109): `LO` the quotient, `HI` the remainder; two free values for a zero divisor (R95), with no
fault. -/
def execDivu (rs rt : RegIdx) (s : State) : Result :=
  let a := s.readReg rs
  let b := s.readReg rt
  if divuUndefined b then .next s.drawHiLo.advance
  else .next (s.writeHiLo (BitVec.ofNat 32 (a.toNat % b.toNat)) (BitVec.ofNat 32 (a.toNat / b.toNat))).advance

/-- `mfhi` (R110). -/
def execMfhi (rd : RegIdx) (s : State) : Result :=
  s.writeAndAdvance rd s.hi

/-- `mflo` (R111). -/
def execMflo (rd : RegIdx) (s : State) : Result :=
  s.writeAndAdvance rd s.lo

end Sys2Proof.Machine
end

