-- ==== Sys2Proof/Machine/Branch.lean ====
section
/-! DEFINITION. The compare-and-branch instructions (43_compare_branch R160 to R172). No delay slot (R161); a
branch raises nothing of its own, whatever its target (R163). -/

namespace Sys2Proof.Machine

/-- The register `$31`, the link register (10_state R23, 30_encoding R69). -/
def linkReg : RegIdx := 31#5

/-- Where a conditional branch goes: its target if the condition holds, `pc + 4` otherwise (R160). -/
def State.branchPc (s : State) (taken : Bool) (imm : Imm16) : Word :=
  if taken then s.branchTarget imm else s.nextPc

/-- A conditional branch (R160, R163). -/
def State.branch (s : State) (taken : Bool) (imm : Imm16) : Result :=
  .next (s.setPc (s.branchPc taken imm))

/-- A conditional branch that links (R170, R171): `x[31] <- pc + 4` whether or not it is taken, the condition
having been read before. -/
def State.branchAndLink (s : State) (taken : Bool) (imm : Imm16) : Result :=
  .next ((s.writeReg linkReg s.nextPc).setPc (s.branchPc taken imm))

/-- `beq` (R164). -/
def execBeq (rs rt : RegIdx) (imm : Imm16) (s : State) : Result :=
  s.branch (s.readReg rs == s.readReg rt) imm

/-- `bne` (R165). -/
def execBne (rs rt : RegIdx) (imm : Imm16) (s : State) : Result :=
  s.branch (s.readReg rs != s.readReg rt) imm

/-- `blez` (R166). -/
def execBlez (rs : RegIdx) (imm : Imm16) (s : State) : Result :=
  s.branch (leZero (s.readReg rs)) imm

/-- `bgtz` (R167). -/
def execBgtz (rs : RegIdx) (imm : Imm16) (s : State) : Result :=
  s.branch (gtZero (s.readReg rs)) imm

/-- `bltz` (R168). -/
def execBltz (rs : RegIdx) (imm : Imm16) (s : State) : Result :=
  s.branch (ltZero (s.readReg rs)) imm

/-- `bgez` (R169). -/
def execBgez (rs : RegIdx) (imm : Imm16) (s : State) : Result :=
  s.branch (geZero (s.readReg rs)) imm

/-- `bltzal` (R170). -/
def execBltzal (rs : RegIdx) (imm : Imm16) (s : State) : Result :=
  s.branchAndLink (ltZero (s.readReg rs)) imm

/-- `bgezal` (R171). -/
def execBgezal (rs : RegIdx) (imm : Imm16) (s : State) : Result :=
  s.branchAndLink (geZero (s.readReg rs)) imm

end Sys2Proof.Machine
end

