-- ==== Sys2Proof/Machine/Jump.lean ====
section
/-! DEFINITION. The compare and jump instructions (44_jump_compare R180 to R185). No delay slot (R185). -/

namespace Sys2Proof.Machine

/-- `slt` (R180). -/
def execSlt (rd rs rt : RegIdx) (s : State) : Result :=
  s.writeAndAdvance rd (setWord (lessSigned (s.readReg rs) (s.readReg rt)))

/-- `sltu` (R181). -/
def execSltu (rd rs rt : RegIdx) (s : State) : Result :=
  s.writeAndAdvance rd (setWord (lessUnsigned (s.readReg rs) (s.readReg rt)))

/-- `j` (R182). -/
def execJ (target : Target26) (s : State) : Result :=
  .next (s.setPc (s.jumpTarget target))

/-- `jal` (R183): the link value is `pc + 4`. -/
def execJal (target : Target26) (s : State) : Result :=
  .next ((s.writeReg linkReg s.nextPc).setPc (s.jumpTarget target))

/-- `jr` (R184): it completes whatever the register holds; a misaligned value faults at the next fetch. -/
def execJr (rs : RegIdx) (s : State) : Result :=
  .next (s.setPc (s.readReg rs))

end Sys2Proof.Machine
end

