-- ==== Sys2Proof/Machine/Logical.lean ====
section
/-! DEFINITION. The logical and shift instructions (41_logical R112 to R132). None of them raises. -/

namespace Sys2Proof.Machine

/-- `and` (R120). -/
def execAnd (rd rs rt : RegIdx) (s : State) : Result :=
  s.writeAndAdvance rd (s.readReg rs &&& s.readReg rt)

/-- `or` (R121). -/
def execOr (rd rs rt : RegIdx) (s : State) : Result :=
  s.writeAndAdvance rd (s.readReg rs ||| s.readReg rt)

/-- `xor` (R122). -/
def execXor (rd rs rt : RegIdx) (s : State) : Result :=
  s.writeAndAdvance rd (s.readReg rs ^^^ s.readReg rt)

/-- `nor` (R123): the complement of `or` (R112). -/
def execNor (rd rs rt : RegIdx) (s : State) : Result :=
  s.writeAndAdvance rd (~~~(s.readReg rs ||| s.readReg rt))

/-- `andi` (R124): the immediate is ZERO-extended (R113). -/
def execAndi (rt rs : RegIdx) (imm : Imm16) (s : State) : Result :=
  s.writeAndAdvance rt (s.readReg rs &&& zextImm imm)

/-- `ori` (R125). -/
def execOri (rt rs : RegIdx) (imm : Imm16) (s : State) : Result :=
  s.writeAndAdvance rt (s.readReg rs ||| zextImm imm)

/-- `xori` (R126; exclusive or, by 90_conflicts C3). -/
def execXori (rt rs : RegIdx) (imm : Imm16) (s : State) : Result :=
  s.writeAndAdvance rt (s.readReg rs ^^^ zextImm imm)

/-- `sll` (R127). -/
def execSll (rd rt : RegIdx) (shamt : Shamt) (s : State) : Result :=
  s.writeAndAdvance rd (s.readReg rt <<< shamt.toNat)

/-- `srl` (R128). -/
def execSrl (rd rt : RegIdx) (shamt : Shamt) (s : State) : Result :=
  s.writeAndAdvance rd (s.readReg rt >>> shamt.toNat)

/-- `sra` (R129). -/
def execSra (rd rt : RegIdx) (shamt : Shamt) (s : State) : Result :=
  s.writeAndAdvance rd ((s.readReg rt).sshiftRight shamt.toNat)

/-- `sllv` (R130): the value is `x[rt]`, the amount `x[rs][4:0]` (R115). -/
def execSllv (rd rt rs : RegIdx) (s : State) : Result :=
  s.writeAndAdvance rd (s.readReg rt <<< s.shiftAmount rs)

/-- `srlv` (R131). -/
def execSrlv (rd rt rs : RegIdx) (s : State) : Result :=
  s.writeAndAdvance rd (s.readReg rt >>> s.shiftAmount rs)

/-- `srav` (R132). -/
def execSrav (rd rt rs : RegIdx) (s : State) : Result :=
  s.writeAndAdvance rd ((s.readReg rt).sshiftRight (s.shiftAmount rs))

end Sys2Proof.Machine
end

