-- ==== Sys2Proof/Machine/Transfer.lean ====
section
/-! DEFINITION. The data transfer instructions (42_data_transfer R140 to R152). The order of effects is R142's:
the effective address, the checks, the access, and for a load the register write. -/

namespace Sys2Proof.Machine

/-- A store of the value `v` at `imm(rs)` (R142). -/
def State.store (s : State) (w : Width) (v : BitVec w.bits) (imm : Imm16) (rs : RegIdx) : Result :=
  match s.memWrite w (s.effectiveAddress rs imm) v with
  | .error r => s.raise r
  | .ok t => .next t.advance

/-- A load into `x[rt]` from `imm(rs)`; `ext` makes the 32-bit register value of what was read (R141, R142). -/
def State.load (s : State) (w : Width) (ext : BitVec w.bits → Word) (rt : RegIdx) (imm : Imm16)
    (rs : RegIdx) : Result :=
  match s.memRead .load w (s.effectiveAddress rs imm) with
  | .error r => s.raise r
  | .ok v => s.writeAndAdvance rt (ext v)

/-- `sw` (R143). -/
def execSw (rt : RegIdx) (imm : Imm16) (rs : RegIdx) (s : State) : Result :=
  s.store .word (s.readReg rt) imm rs

/-- `sh` (R144): `x[rt][15:0]`. -/
def execSh (rt : RegIdx) (imm : Imm16) (rs : RegIdx) (s : State) : Result :=
  s.store .half ((s.readReg rt).extractLsb' 0 16) imm rs

/-- `sb` (R145): `x[rt][7:0]`. -/
def execSb (rt : RegIdx) (imm : Imm16) (rs : RegIdx) (s : State) : Result :=
  s.store .byte ((s.readReg rt).extractLsb' 0 8) imm rs

/-- `lw` (R146). -/
def execLw (rt : RegIdx) (imm : Imm16) (rs : RegIdx) (s : State) : Result :=
  s.load .word (fun v => v) rt imm rs

/-- `lh` (R147): sign-extended. -/
def execLh (rt : RegIdx) (imm : Imm16) (rs : RegIdx) (s : State) : Result :=
  s.load .half (fun v => v.signExtend 32) rt imm rs

/-- `lhu` (R148): zero-extended. -/
def execLhu (rt : RegIdx) (imm : Imm16) (rs : RegIdx) (s : State) : Result :=
  s.load .half (fun v => v.zeroExtend 32) rt imm rs

/-- `lb` (R149): sign-extended. -/
def execLb (rt : RegIdx) (imm : Imm16) (rs : RegIdx) (s : State) : Result :=
  s.load .byte (fun v => v.signExtend 32) rt imm rs

/-- `lbu` (R150): zero-extended. -/
def execLbu (rt : RegIdx) (imm : Imm16) (rs : RegIdx) (s : State) : Result :=
  s.load .byte (fun v => v.zeroExtend 32) rt imm rs

/-- `lui` (R151): it does not access memory. -/
def execLui (rt : RegIdx) (imm : Imm16) (s : State) : Result :=
  s.writeAndAdvance rt (upperImm imm)

end Sys2Proof.Machine
end

