-- ==== Sys2Proof/Syntax.lean ====
section
/-! DEFINITION. The 47 instructions of 00_scope R6, one constructor per row of spec/opcode_table.json, the
operands in the order of the assembly form (30_encoding R81). Every operand has the type of its field, so
an operand value that no word can carry cannot be written down. -/

namespace Sys2Proof

/-- An instruction of MIPS-L5 (30_encoding R71, R81). -/
inductive Instr where
  -- arithmetic (40_arithmetic)
  | add (rd rs rt : RegIdx)
  | addu (rd rs rt : RegIdx)
  | sub (rd rs rt : RegIdx)
  | subu (rd rs rt : RegIdx)
  -- logical (41_logical)
  | and (rd rs rt : RegIdx)
  | or (rd rs rt : RegIdx)
  | xor (rd rs rt : RegIdx)
  | nor (rd rs rt : RegIdx)
  -- compare (44_jump_compare)
  | slt (rd rs rt : RegIdx)
  | sltu (rd rs rt : RegIdx)
  -- shifts (41_logical)
  | sllv (rd rt rs : RegIdx)
  | srlv (rd rt rs : RegIdx)
  | srav (rd rt rs : RegIdx)
  | sll (rd rt : RegIdx) (shamt : Shamt)
  | srl (rd rt : RegIdx) (shamt : Shamt)
  | sra (rd rt : RegIdx) (shamt : Shamt)
  -- multiply, divide, move from HI and LO (40_arithmetic)
  | mult (rs rt : RegIdx)
  | multu (rs rt : RegIdx)
  | div (rs rt : RegIdx)
  | divu (rs rt : RegIdx)
  | mfhi (rd : RegIdx)
  | mflo (rd : RegIdx)
  -- jump register (44_jump_compare)
  | jr (rs : RegIdx)
  -- immediate arithmetic and logical (40_arithmetic, 41_logical)
  | addi (rt rs : RegIdx) (imm : Imm16)
  | addiu (rt rs : RegIdx) (imm : Imm16)
  | andi (rt rs : RegIdx) (imm : Imm16)
  | ori (rt rs : RegIdx) (imm : Imm16)
  | xori (rt rs : RegIdx) (imm : Imm16)
  -- data transfer (42_data_transfer)
  | lb (rt : RegIdx) (imm : Imm16) (rs : RegIdx)
  | lh (rt : RegIdx) (imm : Imm16) (rs : RegIdx)
  | lw (rt : RegIdx) (imm : Imm16) (rs : RegIdx)
  | lbu (rt : RegIdx) (imm : Imm16) (rs : RegIdx)
  | lhu (rt : RegIdx) (imm : Imm16) (rs : RegIdx)
  | sb (rt : RegIdx) (imm : Imm16) (rs : RegIdx)
  | sh (rt : RegIdx) (imm : Imm16) (rs : RegIdx)
  | sw (rt : RegIdx) (imm : Imm16) (rs : RegIdx)
  -- compare and branch (43_compare_branch); lui (42_data_transfer)
  | beq (rs rt : RegIdx) (imm : Imm16)
  | bne (rs rt : RegIdx) (imm : Imm16)
  | lui (rt : RegIdx) (imm : Imm16)
  | blez (rs : RegIdx) (imm : Imm16)
  | bgtz (rs : RegIdx) (imm : Imm16)
  | bltz (rs : RegIdx) (imm : Imm16)
  | bgez (rs : RegIdx) (imm : Imm16)
  | bltzal (rs : RegIdx) (imm : Imm16)
  | bgezal (rs : RegIdx) (imm : Imm16)
  -- jumps (44_jump_compare)
  | j (target : Target26)
  | jal (target : Target26)
  deriving DecidableEq, Repr

/-- The mnemonics of 30_encoding R71, as names (an enumeration: the row an instruction belongs to). -/
inductive Mnemonic where
  | add | addu | sub | subu | and | or | xor | nor | slt | sltu | sllv | srlv | srav | sll | srl | sra
  | mult | multu | div | divu | mfhi | mflo | jr | addi | addiu | andi | ori | xori
  | lb | lh | lw | lbu | lhu | sb | sh | sw | beq | bne | lui
  | blez | bgtz | bltz | bgez | bltzal | bgezal | j | jal
  deriving DecidableEq, Repr

/-- The row of 30_encoding R71 an instruction belongs to. -/
def Instr.mnemonic : Instr → Mnemonic
  | .add _ _ _ => .add
  | .addu _ _ _ => .addu
  | .sub _ _ _ => .sub
  | .subu _ _ _ => .subu
  | .and _ _ _ => .and
  | .or _ _ _ => .or
  | .xor _ _ _ => .xor
  | .nor _ _ _ => .nor
  | .slt _ _ _ => .slt
  | .sltu _ _ _ => .sltu
  | .sllv _ _ _ => .sllv
  | .srlv _ _ _ => .srlv
  | .srav _ _ _ => .srav
  | .sll _ _ _ => .sll
  | .srl _ _ _ => .srl
  | .sra _ _ _ => .sra
  | .mult _ _ => .mult
  | .multu _ _ => .multu
  | .div _ _ => .div
  | .divu _ _ => .divu
  | .mfhi _ => .mfhi
  | .mflo _ => .mflo
  | .jr _ => .jr
  | .addi _ _ _ => .addi
  | .addiu _ _ _ => .addiu
  | .andi _ _ _ => .andi
  | .ori _ _ _ => .ori
  | .xori _ _ _ => .xori
  | .lb _ _ _ => .lb
  | .lh _ _ _ => .lh
  | .lw _ _ _ => .lw
  | .lbu _ _ _ => .lbu
  | .lhu _ _ _ => .lhu
  | .sb _ _ _ => .sb
  | .sh _ _ _ => .sh
  | .sw _ _ _ => .sw
  | .beq _ _ _ => .beq
  | .bne _ _ _ => .bne
  | .lui _ _ => .lui
  | .blez _ _ => .blez
  | .bgtz _ _ => .bgtz
  | .bltz _ _ => .bltz
  | .bgez _ _ => .bgez
  | .bltzal _ _ => .bltzal
  | .bgezal _ _ => .bgezal
  | .j _ => .j
  | .jal _ => .jal

/-- The spelling of a mnemonic, in lower case (30_encoding R71, R80). -/
def Mnemonic.name : Mnemonic → String
  | .add => "add"
  | .addu => "addu"
  | .sub => "sub"
  | .subu => "subu"
  | .and => "and"
  | .or => "or"
  | .xor => "xor"
  | .nor => "nor"
  | .slt => "slt"
  | .sltu => "sltu"
  | .sllv => "sllv"
  | .srlv => "srlv"
  | .srav => "srav"
  | .sll => "sll"
  | .srl => "srl"
  | .sra => "sra"
  | .mult => "mult"
  | .multu => "multu"
  | .div => "div"
  | .divu => "divu"
  | .mfhi => "mfhi"
  | .mflo => "mflo"
  | .jr => "jr"
  | .addi => "addi"
  | .addiu => "addiu"
  | .andi => "andi"
  | .ori => "ori"
  | .xori => "xori"
  | .lb => "lb"
  | .lh => "lh"
  | .lw => "lw"
  | .lbu => "lbu"
  | .lhu => "lhu"
  | .sb => "sb"
  | .sh => "sh"
  | .sw => "sw"
  | .beq => "beq"
  | .bne => "bne"
  | .lui => "lui"
  | .blez => "blez"
  | .bgtz => "bgtz"
  | .bltz => "bltz"
  | .bgez => "bgez"
  | .bltzal => "bltzal"
  | .bgezal => "bgezal"
  | .j => "j"
  | .jal => "jal"

/-- An operand of an assembly line as written (30_encoding R80, R81): a register by its number, a constant, or a
displacement with a base register, `100($2)`. These are raw numbers: WellFormed.lean checks them. -/
inductive AsmOperand where
  | reg (n : Nat)
  | const (v : Int)
  | based (disp : Int) (n : Nat)
  deriving DecidableEq, Repr

/-- A line of assembly, its mnemonic and operands in the written order (30_encoding R80). -/
structure AsmLine where
  mnemonic : Mnemonic
  operands : List AsmOperand
  deriving DecidableEq, Repr

end Sys2Proof
end

