-- ==== Sys2Proof/Decode.lean ====
section
/-! DEFINITION. Decoding and encoding (30_encoding R60 to R75). The decoder is the table of R71; the encoder
is written apart from it, from the three formats of R61 to R63 and the numbers of R72, so that their
agreement says something. -/

namespace Sys2Proof

/-- Why bytes do not decode. `reserved`: the word matches no row (30_encoding R70, R74). `truncated`: fewer than
the four bytes of an instruction (30_encoding R60) are there. -/
inductive DecodeError where
  | reserved (w : Word)
  | truncated
  deriving DecidableEq, Repr

/-- A row of the opcode table: the word `w` is the row's when `w & mask = bits` (30_encoding R70). -/
structure OpcodeRow where
  bits : Word
  mask : Word
  deriving DecidableEq, Repr

/-! ### The fields of a word (30_encoding R61 to R63) -/

def fieldOp (w : Word) : BitVec 6 := w.extractLsb' 26 6
def fieldRs (w : Word) : RegIdx := w.extractLsb' 21 5
def fieldRt (w : Word) : RegIdx := w.extractLsb' 16 5
def fieldRd (w : Word) : RegIdx := w.extractLsb' 11 5
def fieldShamt (w : Word) : Shamt := w.extractLsb' 6 5
def fieldFunct (w : Word) : BitVec 6 := w.extractLsb' 0 6
def fieldImm (w : Word) : Imm16 := w.extractLsb' 0 16
def fieldTarget (w : Word) : Target26 := w.extractLsb' 0 26

/-! ### The decoder -/

/-- The opcode table (30_encoding R71; its unused fields are fixed zeros by R73). The numbers of all rows
but those of `add`, `addi`, `lw`, `bne` and `jr` are the spec's general knowledge (UNVERIFIED, log entry 14). -/
def Mnemonic.row : Mnemonic → OpcodeRow
  | .add => ⟨0x00000020#32, 0xFC0007FF#32⟩
  | .addu => ⟨0x00000021#32, 0xFC0007FF#32⟩
  | .sub => ⟨0x00000022#32, 0xFC0007FF#32⟩
  | .subu => ⟨0x00000023#32, 0xFC0007FF#32⟩
  | .and => ⟨0x00000024#32, 0xFC0007FF#32⟩
  | .or => ⟨0x00000025#32, 0xFC0007FF#32⟩
  | .xor => ⟨0x00000026#32, 0xFC0007FF#32⟩
  | .nor => ⟨0x00000027#32, 0xFC0007FF#32⟩
  | .slt => ⟨0x0000002A#32, 0xFC0007FF#32⟩
  | .sltu => ⟨0x0000002B#32, 0xFC0007FF#32⟩
  | .sllv => ⟨0x00000004#32, 0xFC0007FF#32⟩
  | .srlv => ⟨0x00000006#32, 0xFC0007FF#32⟩
  | .srav => ⟨0x00000007#32, 0xFC0007FF#32⟩
  | .sll => ⟨0x00000000#32, 0xFFE0003F#32⟩
  | .srl => ⟨0x00000002#32, 0xFFE0003F#32⟩
  | .sra => ⟨0x00000003#32, 0xFFE0003F#32⟩
  | .mult => ⟨0x00000018#32, 0xFC00FFFF#32⟩
  | .multu => ⟨0x00000019#32, 0xFC00FFFF#32⟩
  | .div => ⟨0x0000001A#32, 0xFC00FFFF#32⟩
  | .divu => ⟨0x0000001B#32, 0xFC00FFFF#32⟩
  | .mfhi => ⟨0x00000010#32, 0xFFFF07FF#32⟩
  | .mflo => ⟨0x00000012#32, 0xFFFF07FF#32⟩
  | .jr => ⟨0x00000008#32, 0xFC1FFFFF#32⟩
  | .addi => ⟨0x20000000#32, 0xFC000000#32⟩
  | .addiu => ⟨0x24000000#32, 0xFC000000#32⟩
  | .andi => ⟨0x30000000#32, 0xFC000000#32⟩
  | .ori => ⟨0x34000000#32, 0xFC000000#32⟩
  | .xori => ⟨0x38000000#32, 0xFC000000#32⟩
  | .lb => ⟨0x80000000#32, 0xFC000000#32⟩
  | .lh => ⟨0x84000000#32, 0xFC000000#32⟩
  | .lw => ⟨0x8C000000#32, 0xFC000000#32⟩
  | .lbu => ⟨0x90000000#32, 0xFC000000#32⟩
  | .lhu => ⟨0x94000000#32, 0xFC000000#32⟩
  | .sb => ⟨0xA0000000#32, 0xFC000000#32⟩
  | .sh => ⟨0xA4000000#32, 0xFC000000#32⟩
  | .sw => ⟨0xAC000000#32, 0xFC000000#32⟩
  | .beq => ⟨0x10000000#32, 0xFC000000#32⟩
  | .bne => ⟨0x14000000#32, 0xFC000000#32⟩
  | .lui => ⟨0x3C000000#32, 0xFFE00000#32⟩
  | .blez => ⟨0x18000000#32, 0xFC1F0000#32⟩
  | .bgtz => ⟨0x1C000000#32, 0xFC1F0000#32⟩
  | .bltz => ⟨0x04000000#32, 0xFC1F0000#32⟩
  | .bgez => ⟨0x04010000#32, 0xFC1F0000#32⟩
  | .bltzal => ⟨0x04100000#32, 0xFC1F0000#32⟩
  | .bgezal => ⟨0x04110000#32, 0xFC1F0000#32⟩
  | .j => ⟨0x08000000#32, 0xFC000000#32⟩
  | .jal => ⟨0x0C000000#32, 0xFC000000#32⟩

/-- Every row of the table, in the order of spec/opcode_table.json. -/
def Mnemonic.all : List Mnemonic :=
  [.add, .addu, .sub, .subu, .and, .or, .xor, .nor, .slt, .sltu,
   .sllv, .srlv, .srav, .sll, .srl, .sra, .mult, .multu, .div, .divu, .mfhi, .mflo,
   .jr, .addi, .addiu, .andi, .ori, .xori, .lb, .lh, .lw, .lbu, .lhu, .sb, .sh, .sw,
   .beq, .bne, .lui, .blez, .bgtz, .bltz, .bgez, .bltzal, .bgezal, .j, .jal]

/-- `w` is a word of this row: `w & mask = match` (30_encoding R70). -/
def Mnemonic.admits (m : Mnemonic) (w : Word) : Bool :=
  w &&& m.row.mask == m.row.bits

/-- The instruction of this row that `w` names: its fields (30_encoding R61 to R63) put to the operands of
the assembly form (30_encoding R81). -/
def Mnemonic.instr (m : Mnemonic) (w : Word) : Instr :=
  match m with
  | .add => .add (fieldRd w) (fieldRs w) (fieldRt w)
  | .addu => .addu (fieldRd w) (fieldRs w) (fieldRt w)
  | .sub => .sub (fieldRd w) (fieldRs w) (fieldRt w)
  | .subu => .subu (fieldRd w) (fieldRs w) (fieldRt w)
  | .and => .and (fieldRd w) (fieldRs w) (fieldRt w)
  | .or => .or (fieldRd w) (fieldRs w) (fieldRt w)
  | .xor => .xor (fieldRd w) (fieldRs w) (fieldRt w)
  | .nor => .nor (fieldRd w) (fieldRs w) (fieldRt w)
  | .slt => .slt (fieldRd w) (fieldRs w) (fieldRt w)
  | .sltu => .sltu (fieldRd w) (fieldRs w) (fieldRt w)
  | .sllv => .sllv (fieldRd w) (fieldRt w) (fieldRs w)
  | .srlv => .srlv (fieldRd w) (fieldRt w) (fieldRs w)
  | .srav => .srav (fieldRd w) (fieldRt w) (fieldRs w)
  | .sll => .sll (fieldRd w) (fieldRt w) (fieldShamt w)
  | .srl => .srl (fieldRd w) (fieldRt w) (fieldShamt w)
  | .sra => .sra (fieldRd w) (fieldRt w) (fieldShamt w)
  | .mult => .mult (fieldRs w) (fieldRt w)
  | .multu => .multu (fieldRs w) (fieldRt w)
  | .div => .div (fieldRs w) (fieldRt w)
  | .divu => .divu (fieldRs w) (fieldRt w)
  | .mfhi => .mfhi (fieldRd w)
  | .mflo => .mflo (fieldRd w)
  | .jr => .jr (fieldRs w)
  | .addi => .addi (fieldRt w) (fieldRs w) (fieldImm w)
  | .addiu => .addiu (fieldRt w) (fieldRs w) (fieldImm w)
  | .andi => .andi (fieldRt w) (fieldRs w) (fieldImm w)
  | .ori => .ori (fieldRt w) (fieldRs w) (fieldImm w)
  | .xori => .xori (fieldRt w) (fieldRs w) (fieldImm w)
  | .lb => .lb (fieldRt w) (fieldImm w) (fieldRs w)
  | .lh => .lh (fieldRt w) (fieldImm w) (fieldRs w)
  | .lw => .lw (fieldRt w) (fieldImm w) (fieldRs w)
  | .lbu => .lbu (fieldRt w) (fieldImm w) (fieldRs w)
  | .lhu => .lhu (fieldRt w) (fieldImm w) (fieldRs w)
  | .sb => .sb (fieldRt w) (fieldImm w) (fieldRs w)
  | .sh => .sh (fieldRt w) (fieldImm w) (fieldRs w)
  | .sw => .sw (fieldRt w) (fieldImm w) (fieldRs w)
  | .beq => .beq (fieldRs w) (fieldRt w) (fieldImm w)
  | .bne => .bne (fieldRs w) (fieldRt w) (fieldImm w)
  | .lui => .lui (fieldRt w) (fieldImm w)
  | .blez => .blez (fieldRs w) (fieldImm w)
  | .bgtz => .bgtz (fieldRs w) (fieldImm w)
  | .bltz => .bltz (fieldRs w) (fieldImm w)
  | .bgez => .bgez (fieldRs w) (fieldImm w)
  | .bltzal => .bltzal (fieldRs w) (fieldImm w)
  | .bgezal => .bgezal (fieldRs w) (fieldImm w)
  | .j => .j (fieldTarget w)
  | .jal => .jal (fieldTarget w)

/-- Decoding of a word: the row that admits it, or `reserved` (30_encoding R70). Total on every word. -/
def decode (w : Word) : Except DecodeError Instr :=
  match Mnemonic.all.find? (fun m => m.admits w) with
  | some m => .ok (m.instr w)
  | none => .error (.reserved w)

/-- Decoding of bytes at rising addresses: the first four make up the word in byte order `e` (30_encoding R60,
20_memory R45); the rest is handed back. Total on every list of bytes. -/
def decodeBytes (e : Endian) (bs : List Byte) : Except DecodeError (Instr × List Byte) :=
  match bs with
  | b0 :: b1 :: b2 :: b3 :: rest =>
    match decode (Machine.joinBytes e .word fun i => [b0, b1, b2, b3].getD i 0) with
    | .ok i => .ok (i, rest)
    | .error r => .error r
  | _ => .error .truncated

/-! ### The encoder -/

/-- An R-type word (30_encoding R61). -/
def encodeR (rs rt rd : RegIdx) (shamt : Shamt) (funct : BitVec 6) : Word :=
  0b000000#6 ++ rs ++ rt ++ rd ++ shamt ++ funct

/-- An I-type word (30_encoding R62). -/
def encodeI (op : BitVec 6) (rs rt : RegIdx) (imm : Imm16) : Word :=
  op ++ rs ++ rt ++ imm

/-- A J-type word (30_encoding R63). -/
def encodeJ (op : BitVec 6) (target : Target26) : Word :=
  op ++ target

/-- The word of an instruction, from the formats of 30_encoding R61 to R63, the operand places of R81 and the
numbers of R72. -/
def encode : Instr → Word
  | .add rd rs rt => encodeR rs rt rd 0#5 0b100000#6
  | .addu rd rs rt => encodeR rs rt rd 0#5 0b100001#6
  | .sub rd rs rt => encodeR rs rt rd 0#5 0b100010#6
  | .subu rd rs rt => encodeR rs rt rd 0#5 0b100011#6
  | .and rd rs rt => encodeR rs rt rd 0#5 0b100100#6
  | .or rd rs rt => encodeR rs rt rd 0#5 0b100101#6
  | .xor rd rs rt => encodeR rs rt rd 0#5 0b100110#6
  | .nor rd rs rt => encodeR rs rt rd 0#5 0b100111#6
  | .slt rd rs rt => encodeR rs rt rd 0#5 0b101010#6
  | .sltu rd rs rt => encodeR rs rt rd 0#5 0b101011#6
  | .sllv rd rt rs => encodeR rs rt rd 0#5 0b000100#6
  | .srlv rd rt rs => encodeR rs rt rd 0#5 0b000110#6
  | .srav rd rt rs => encodeR rs rt rd 0#5 0b000111#6
  | .sll rd rt shamt => encodeR 0#5 rt rd shamt 0b000000#6
  | .srl rd rt shamt => encodeR 0#5 rt rd shamt 0b000010#6
  | .sra rd rt shamt => encodeR 0#5 rt rd shamt 0b000011#6
  | .mult rs rt => encodeR rs rt 0#5 0#5 0b011000#6
  | .multu rs rt => encodeR rs rt 0#5 0#5 0b011001#6
  | .div rs rt => encodeR rs rt 0#5 0#5 0b011010#6
  | .divu rs rt => encodeR rs rt 0#5 0#5 0b011011#6
  | .mfhi rd => encodeR 0#5 0#5 rd 0#5 0b010000#6
  | .mflo rd => encodeR 0#5 0#5 rd 0#5 0b010010#6
  | .jr rs => encodeR rs 0#5 0#5 0#5 0b001000#6
  | .addi rt rs imm => encodeI 0b001000#6 rs rt imm
  | .addiu rt rs imm => encodeI 0b001001#6 rs rt imm
  | .andi rt rs imm => encodeI 0b001100#6 rs rt imm
  | .ori rt rs imm => encodeI 0b001101#6 rs rt imm
  | .xori rt rs imm => encodeI 0b001110#6 rs rt imm
  | .lb rt imm rs => encodeI 0b100000#6 rs rt imm
  | .lh rt imm rs => encodeI 0b100001#6 rs rt imm
  | .lw rt imm rs => encodeI 0b100011#6 rs rt imm
  | .lbu rt imm rs => encodeI 0b100100#6 rs rt imm
  | .lhu rt imm rs => encodeI 0b100101#6 rs rt imm
  | .sb rt imm rs => encodeI 0b101000#6 rs rt imm
  | .sh rt imm rs => encodeI 0b101001#6 rs rt imm
  | .sw rt imm rs => encodeI 0b101011#6 rs rt imm
  | .beq rs rt imm => encodeI 0b000100#6 rs rt imm
  | .bne rs rt imm => encodeI 0b000101#6 rs rt imm
  | .lui rt imm => encodeI 0b001111#6 0#5 rt imm
  | .blez rs imm => encodeI 0b000110#6 rs 0b00000#5 imm
  | .bgtz rs imm => encodeI 0b000111#6 rs 0b00000#5 imm
  | .bltz rs imm => encodeI 0b000001#6 rs 0b00000#5 imm
  | .bgez rs imm => encodeI 0b000001#6 rs 0b00001#5 imm
  | .bltzal rs imm => encodeI 0b000001#6 rs 0b10000#5 imm
  | .bgezal rs imm => encodeI 0b000001#6 rs 0b10001#5 imm
  | .j target => encodeJ 0b000010#6 target
  | .jal target => encodeJ 0b000011#6 target

/-- The bytes of an instruction at rising addresses, in byte order `e` (20_memory R42, R45). -/
def encodeBytes (e : Endian) (i : Instr) : List Byte :=
  Machine.splitBytes e .word (encode i)

/-! ### The opcode map in prose, and the unused fields -/

/-- The R-type group: the table of `funct` in 30_encoding R72. -/
def opcodeMapFunct (funct : BitVec 6) : Option Mnemonic :=
  List.lookup funct
    [(0b000000#6, .sll), (0b000010#6, .srl), (0b000011#6, .sra), (0b000100#6, .sllv),
     (0b000110#6, .srlv), (0b000111#6, .srav), (0b001000#6, .jr), (0b010000#6, .mfhi),
     (0b010010#6, .mflo), (0b011000#6, .mult), (0b011001#6, .multu), (0b011010#6, .div),
     (0b011011#6, .divu), (0b100000#6, .add), (0b100001#6, .addu), (0b100010#6, .sub),
     (0b100011#6, .subu), (0b100100#6, .and), (0b100101#6, .or), (0b100110#6, .xor),
     (0b100111#6, .nor), (0b101010#6, .slt), (0b101011#6, .sltu)]

/-- The group `op = 000001`: the `rt` values of 30_encoding R72. -/
def opcodeMapRt (rt : RegIdx) : Option Mnemonic :=
  List.lookup rt
    [(0b00000#5, .bltz), (0b00001#5, .bgez), (0b10000#5, .bltzal), (0b10001#5, .bgezal)]

/-- The `op` values of 30_encoding R72 other than the two groups. -/
def opcodeMapOp (op : BitVec 6) : Option Mnemonic :=
  List.lookup op
    [(0b000010#6, .j), (0b000011#6, .jal), (0b000100#6, .beq), (0b000101#6, .bne),
     (0b000110#6, .blez), (0b000111#6, .bgtz), (0b001000#6, .addi), (0b001001#6, .addiu),
     (0b001100#6, .andi), (0b001101#6, .ori), (0b001110#6, .xori), (0b001111#6, .lui),
     (0b100000#6, .lb), (0b100001#6, .lh), (0b100011#6, .lw), (0b100100#6, .lbu),
     (0b100101#6, .lhu), (0b101000#6, .sb), (0b101001#6, .sh), (0b101011#6, .sw)]

/-- The opcode map of 30_encoding R72: the mnemonic the map gives a word by `op`, then `funct` or `rt`; `none`
where the map says reserved. It does not look at the unused fields of R73. -/
def opcodeMap (w : Word) : Option Mnemonic :=
  if fieldOp w = 0b000000#6 then opcodeMapFunct (fieldFunct w)
  else if fieldOp w = 0b000001#6 then opcodeMapRt (fieldRt w)
  else opcodeMapOp (fieldOp w)

/-- The fields 30_encoding R73 says an instruction does not use are zero in `w`. -/
def unusedFieldsZero (m : Mnemonic) (w : Word) : Bool :=
  match m with
  | .add | .addu | .sub | .subu | .and | .or | .xor | .nor | .slt | .sltu | .sllv | .srlv | .srav =>
    fieldShamt w == 0#5
  | .sll | .srl | .sra | .lui => fieldRs w == 0#5
  | .mult | .multu | .div | .divu => fieldRd w == 0#5 && fieldShamt w == 0#5
  | .mfhi | .mflo => fieldRs w == 0#5 && fieldRt w == 0#5 && fieldShamt w == 0#5
  | .jr => fieldRt w == 0#5 && fieldRd w == 0#5 && fieldShamt w == 0#5
  | .blez | .bgtz => fieldRt w == 0#5
  | .addi | .addiu | .andi | .ori | .xori | .lb | .lh | .lw | .lbu | .lhu | .sb | .sh | .sw
  | .beq | .bne | .bltz | .bgez | .bltzal | .bgezal | .j | .jal => true

/-! ### The host's table words -/

/-- The instruction the decoder reads from a table word: the `nbits` low bits of `w`, every bit above them
zero, laid out as State.reset's byte order stores a word and given to `decodeBytes`. -/
def decodeTableWord (nbits w : Nat) : Option Instr :=
  match decodeBytes Config.params.endian
      (Machine.splitBytes Config.params.endian .word (BitVec.ofNat 32 (w % 2 ^ nbits))) with
  | .ok (i, _) => some i
  | .error _ => none

end Sys2Proof
end

