-- ==== Sys2Proof/Machine/Fetch.lean ====
section
/-! DEFINITION. Instruction fetch and decode, the first half of a step (00_scope R12, 20_memory R45, R46). -/

namespace Sys2Proof.Machine

/-- A word decoded, or the raise of a reserved encoding, whose `info` is the word (30_encoding R70, R74;
60_exceptions R203). -/
def decodeOrRaise (w : Word) : Except Raise Instr :=
  match decode w with
  | .ok i => .ok i
  | .error _ => .error ⟨.reservedInstruction, some w⟩

/-- The instruction at `pc`, or what its fetch raises, in the order of 60_exceptions R209: alignment of `pc`,
`MEM_VALID`, decoding. -/
def State.fetchInstr (s : State) : Except Raise Instr :=
  match s.memRead .fetch .word s.pc with
  | .error r => .error r
  | .ok w => decodeOrRaise w

end Sys2Proof.Machine
end

