-- ==== Sys2Proof/Machine/Step.lean ====
section
/-! DEFINITION. One step (00_scope R12, 60_exceptions R209, R210, R225), and the word the host places for the
next fetch. -/

namespace Sys2Proof.Machine

/-- One step (00_scope R12). `END_PC` is compared first, before the alignment check (60 R225). A fault of the
fetch or of the decoding is taken here, a fault of the execution by the meaning itself (60 R209, R210). A
faulted and an ended state have no further step (60 R210, R225). -/
def step (s : State) : Host.Outcome State Fault Refusal :=
  match s.status with
  | .faulted cause epc info => .fault (.stoppedByFault cause epc info)
  | .ended => .fault .runIsOver
  | .running =>
    if s.pc = s.params.endPc then .next s.endRun
    else
      match s.fetchInstr with
      | .error r => s.raise r
      | .ok i => exec i s

/-- The state with the table word `w` (its `nbits` low bits, every bit above them zero) stored at `pc`, where
step fetches its next instruction, in the byte order in force. Nothing else is changed: from State.reset the
fetch needs no more (log entry 11). -/
def State.withFetchWord (s : State) (nbits w : Nat) : State :=
  s.placeWord s.pc (BitVec.ofNat 32 (w % 2 ^ nbits))

end Sys2Proof.Machine
end

