-- ==== Sys2Proof/WellFormed.lean ====
section
/-! DEFINITION. What is well formed. An instruction needs no check of its own: every operand of Instr has exactly
the values of its field (30_encoding R61 to R63, R69), so every term of Instr is an instruction of R71 and has
a word. What can be ill-formed is what is written in raw numbers: the operands of an assembly line, the
launch arguments, and the list that stands for memory. -/

namespace Sys2Proof

/-- A register number is 0..31 (30_encoding R80). -/
def asmRegOk (n : Nat) : Bool :=
  decide (n < 32)

/-- An immediate is -32768..65535 (30_encoding R84). -/
def asmImmOk (v : Int) : Bool :=
  decide (-32768 ≤ v) && decide (v ≤ 65535)

/-- A shift amount is 0..31 (30_encoding R61, R68). -/
def asmShamtOk (v : Int) : Bool :=
  decide (0 ≤ v) && decide (v < 32)

/-- The address of a jump at `pc` is a 32-bit address, a multiple of 4, with the bits 31:28 of the address after the
jump (30_encoding R83). -/
def asmAddressOk (pc : Word) (v : Int) : Bool :=
  decide (0 ≤ v) && decide (v < 2 ^ 32) && decide (v % 4 = 0) &&
    ((BitVec.ofInt 32 v).extractLsb' 28 4 == (pc + 4#32).extractLsb' 28 4)

namespace Machine

/-- Every cell of the image is an address of the 2^32 bytes (10_state R34). -/
def imageInSpace (image : List Host.Cell) : Bool :=
  image.all fun c => decide (c.1 < 2 ^ 32)

/-- A launch is well formed when `ENTRY_PC` is a multiple of 4 (10_state R36, 70_reset R243) and the image lies in the
address space. -/
def Launch.wf (l : Launch) : Bool :=
  decide (l.entryPc.toNat % 4 = 0) && imageInSpace l.image

/-- The invariant of the model: memory is in its canonical form. Every other field admits every value of its type,
`pc` too (a misaligned `pc` is a legal state whose next step faults, 20_memory R46). -/
def State.wf (s : State) : Bool :=
  s.mem.wf

end Machine

end Sys2Proof
end

