-- ==== Sys2Proof/Machine/Assembler.lean ====
section
/-! DEFINITION. Assembly as notation for instruction words (00_scope R15; 30_encoding R80 to R85): reading a line,
putting its operands to the fields (R81), and writing an instruction as a line. There are no
pseudo-instructions (R85): every mnemonic is a row of the opcode table. Nothing in a step uses this file. -/

namespace Sys2Proof.Machine

/-! ### Operands of a line to fields -/

/-- A register number to its specifier (30_encoding R69, R80). -/
def asmReg (n : Nat) : Option RegIdx :=
  if asmRegOk n then some (BitVec.ofNat 5 n) else none

/-- A constant to the immediate field: its low 16 bits (R84; for a branch the offset unchanged, R82). -/
def asmImm (v : Int) : Option Imm16 :=
  if asmImmOk v then some (BitVec.ofInt 16 v) else none

/-- A constant to the shift amount field (R81). -/
def asmShamt (v : Int) : Option Shamt :=
  if asmShamtOk v then some (BitVec.ofInt 5 v) else none

/-- An absolute address to the target field, its bits 27:2, for a jump at `pc` (R67, R83). -/
def asmTarget (pc : Word) (v : Int) : Option Target26 :=
  if asmAddressOk pc v then some ((BitVec.ofInt 32 v).extractLsb' 2 26) else none

/-! ### The forms of R81 -/

/-- `op $a, $b, $c`. -/
def asmThreeRegs (f : RegIdx → RegIdx → RegIdx → Instr) : List AsmOperand → Option Instr
  | [.reg a, .reg b, .reg c] =>
    match asmReg a, asmReg b, asmReg c with
    | some a, some b, some c => some (f a b c)
    | _, _, _ => none
  | _ => none

/-- `op $a, $b, shamt`. -/
def asmRegsShamt (f : RegIdx → RegIdx → Shamt → Instr) : List AsmOperand → Option Instr
  | [.reg a, .reg b, .const v] =>
    match asmReg a, asmReg b, asmShamt v with
    | some a, some b, some v => some (f a b v)
    | _, _, _ => none
  | _ => none

/-- `op $a, $b`. -/
def asmTwoRegs (f : RegIdx → RegIdx → Instr) : List AsmOperand → Option Instr
  | [.reg a, .reg b] =>
    match asmReg a, asmReg b with
    | some a, some b => some (f a b)
    | _, _ => none
  | _ => none

/-- `op $a`. -/
def asmOneReg (f : RegIdx → Instr) : List AsmOperand → Option Instr
  | [.reg a] => (asmReg a).map f
  | _ => none

/-- `op $a, $b, imm`. -/
def asmRegsImm (f : RegIdx → RegIdx → Imm16 → Instr) : List AsmOperand → Option Instr
  | [.reg a, .reg b, .const v] =>
    match asmReg a, asmReg b, asmImm v with
    | some a, some b, some v => some (f a b v)
    | _, _, _ => none
  | _ => none

/-- `op $a, imm`. -/
def asmRegImm (f : RegIdx → Imm16 → Instr) : List AsmOperand → Option Instr
  | [.reg a, .const v] =>
    match asmReg a, asmImm v with
    | some a, some v => some (f a v)
    | _, _ => none
  | _ => none

/-- `op $a, imm($b)`. -/
def asmRegBased (f : RegIdx → Imm16 → RegIdx → Instr) : List AsmOperand → Option Instr
  | [.reg a, .based v b] =>
    match asmReg a, asmImm v, asmReg b with
    | some a, some v, some b => some (f a v b)
    | _, _, _ => none
  | _ => none

/-- `op address`, at `pc`. -/
def asmAddress (pc : Word) (f : Target26 → Instr) : List AsmOperand → Option Instr
  | [.const v] => (asmTarget pc v).map f
  | _ => none

/-- The instruction of a line that stands at `pc` (R81); `none` for a line that is not of its mnemonic's form or
whose operands are out of range. -/
def assemble (pc : Word) (l : AsmLine) : Option Instr :=
  match l.mnemonic with
  | .add => asmThreeRegs .add l.operands
  | .addu => asmThreeRegs .addu l.operands
  | .sub => asmThreeRegs .sub l.operands
  | .subu => asmThreeRegs .subu l.operands
  | .and => asmThreeRegs .and l.operands
  | .or => asmThreeRegs .or l.operands
  | .xor => asmThreeRegs .xor l.operands
  | .nor => asmThreeRegs .nor l.operands
  | .slt => asmThreeRegs .slt l.operands
  | .sltu => asmThreeRegs .sltu l.operands
  | .sllv => asmThreeRegs .sllv l.operands
  | .srlv => asmThreeRegs .srlv l.operands
  | .srav => asmThreeRegs .srav l.operands
  | .sll => asmRegsShamt .sll l.operands
  | .srl => asmRegsShamt .srl l.operands
  | .sra => asmRegsShamt .sra l.operands
  | .mult => asmTwoRegs .mult l.operands
  | .multu => asmTwoRegs .multu l.operands
  | .div => asmTwoRegs .div l.operands
  | .divu => asmTwoRegs .divu l.operands
  | .mfhi => asmOneReg .mfhi l.operands
  | .mflo => asmOneReg .mflo l.operands
  | .jr => asmOneReg .jr l.operands
  | .addi => asmRegsImm .addi l.operands
  | .addiu => asmRegsImm .addiu l.operands
  | .andi => asmRegsImm .andi l.operands
  | .ori => asmRegsImm .ori l.operands
  | .xori => asmRegsImm .xori l.operands
  | .lb => asmRegBased .lb l.operands
  | .lh => asmRegBased .lh l.operands
  | .lw => asmRegBased .lw l.operands
  | .lbu => asmRegBased .lbu l.operands
  | .lhu => asmRegBased .lhu l.operands
  | .sb => asmRegBased .sb l.operands
  | .sh => asmRegBased .sh l.operands
  | .sw => asmRegBased .sw l.operands
  | .beq => asmRegsImm .beq l.operands
  | .bne => asmRegsImm .bne l.operands
  | .lui => asmRegImm .lui l.operands
  | .blez => asmRegImm .blez l.operands
  | .bgtz => asmRegImm .bgtz l.operands
  | .bltz => asmRegImm .bltz l.operands
  | .bgez => asmRegImm .bgez l.operands
  | .bltzal => asmRegImm .bltzal l.operands
  | .bgezal => asmRegImm .bgezal l.operands
  | .j => asmAddress pc .j l.operands
  | .jal => asmAddress pc .jal l.operands

/-! ### An instruction as a line -/

/-- A sign-extended immediate as a constant (R84: for `addi` the value denoted is -32768..32767). -/
def signedConst (imm : Imm16) : AsmOperand := .const imm.toInt

/-- A zero-extended immediate as a constant (R84: for `ori` the value denoted is 0..65535). -/
def unsignedConst (imm : Imm16) : AsmOperand := .const imm.toNat

/-- A register operand. -/
def regOperand (i : RegIdx) : AsmOperand := .reg i.toNat

/-- The absolute address a jump at `pc` names (R83). -/
def addressOperand (pc : Word) (target : Target26) : AsmOperand :=
  .const (jumpAddress (pc + 4#32) target).toNat

/-- The operands of an instruction that stands at `pc`, in the order of R81. -/
def operandsOf (pc : Word) : Instr → List AsmOperand
  | .add rd rs rt => [regOperand rd, regOperand rs, regOperand rt]
  | .addu rd rs rt => [regOperand rd, regOperand rs, regOperand rt]
  | .sub rd rs rt => [regOperand rd, regOperand rs, regOperand rt]
  | .subu rd rs rt => [regOperand rd, regOperand rs, regOperand rt]
  | .and rd rs rt => [regOperand rd, regOperand rs, regOperand rt]
  | .or rd rs rt => [regOperand rd, regOperand rs, regOperand rt]
  | .xor rd rs rt => [regOperand rd, regOperand rs, regOperand rt]
  | .nor rd rs rt => [regOperand rd, regOperand rs, regOperand rt]
  | .slt rd rs rt => [regOperand rd, regOperand rs, regOperand rt]
  | .sltu rd rs rt => [regOperand rd, regOperand rs, regOperand rt]
  | .sllv rd rt rs => [regOperand rd, regOperand rt, regOperand rs]
  | .srlv rd rt rs => [regOperand rd, regOperand rt, regOperand rs]
  | .srav rd rt rs => [regOperand rd, regOperand rt, regOperand rs]
  | .sll rd rt shamt => [regOperand rd, regOperand rt, .const shamt.toNat]
  | .srl rd rt shamt => [regOperand rd, regOperand rt, .const shamt.toNat]
  | .sra rd rt shamt => [regOperand rd, regOperand rt, .const shamt.toNat]
  | .mult rs rt => [regOperand rs, regOperand rt]
  | .multu rs rt => [regOperand rs, regOperand rt]
  | .div rs rt => [regOperand rs, regOperand rt]
  | .divu rs rt => [regOperand rs, regOperand rt]
  | .mfhi rd => [regOperand rd]
  | .mflo rd => [regOperand rd]
  | .jr rs => [regOperand rs]
  | .addi rt rs imm => [regOperand rt, regOperand rs, signedConst imm]
  | .addiu rt rs imm => [regOperand rt, regOperand rs, signedConst imm]
  | .andi rt rs imm => [regOperand rt, regOperand rs, unsignedConst imm]
  | .ori rt rs imm => [regOperand rt, regOperand rs, unsignedConst imm]
  | .xori rt rs imm => [regOperand rt, regOperand rs, unsignedConst imm]
  | .lb rt imm rs => [regOperand rt, .based imm.toInt rs.toNat]
  | .lh rt imm rs => [regOperand rt, .based imm.toInt rs.toNat]
  | .lw rt imm rs => [regOperand rt, .based imm.toInt rs.toNat]
  | .lbu rt imm rs => [regOperand rt, .based imm.toInt rs.toNat]
  | .lhu rt imm rs => [regOperand rt, .based imm.toInt rs.toNat]
  | .sb rt imm rs => [regOperand rt, .based imm.toInt rs.toNat]
  | .sh rt imm rs => [regOperand rt, .based imm.toInt rs.toNat]
  | .sw rt imm rs => [regOperand rt, .based imm.toInt rs.toNat]
  | .beq rs rt imm => [regOperand rs, regOperand rt, signedConst imm]
  | .bne rs rt imm => [regOperand rs, regOperand rt, signedConst imm]
  | .lui rt imm => [regOperand rt, unsignedConst imm]
  | .blez rs imm => [regOperand rs, signedConst imm]
  | .bgtz rs imm => [regOperand rs, signedConst imm]
  | .bltz rs imm => [regOperand rs, signedConst imm]
  | .bgez rs imm => [regOperand rs, signedConst imm]
  | .bltzal rs imm => [regOperand rs, signedConst imm]
  | .bgezal rs imm => [regOperand rs, signedConst imm]
  | .j target => [addressOperand pc target]
  | .jal target => [addressOperand pc target]

/-- An instruction that stands at `pc` as a line of assembly (R80, R81). -/
def disassemble (pc : Word) (i : Instr) : AsmLine :=
  { mnemonic := i.mnemonic, operands := operandsOf pc i }

/-! ### Reading the text of a line (R80) -/

/-- The value of a digit, up to base 16. -/
def digitValue (c : Char) : Option Nat :=
  if '0' ≤ c ∧ c ≤ '9' then some (c.toNat - '0'.toNat)
  else if 'a' ≤ c ∧ c ≤ 'f' then some (c.toNat - 'a'.toNat + 10)
  else none

/-- A run of digits of the base, after the value read so far. -/
def readDigits (base : Nat) : List Char → Nat → Option Nat
  | [], acc => some acc
  | c :: cs, acc =>
    match digitValue c with
    | some d => if d < base then readDigits base cs (acc * base + d) else none
    | none => none

/-- A constant without sign: hexadecimal with `0x`, or decimal. -/
def readNat : List Char → Option Nat
  | '0' :: 'x' :: c :: cs => readDigits 16 (c :: cs) 0
  | c :: cs => readDigits 10 (c :: cs) 0
  | [] => none

/-- A constant; a negative one is written with `-`. -/
def readConst : List Char → Option Int
  | '-' :: cs => (readNat cs).map fun n => -(n : Int)
  | cs => (readNat cs).map fun n => (n : Int)

/-- A register, `$n` or `rn` (`Rn` once in lower case), `n` decimal. -/
def readRegister : List Char → Option Nat
  | '$' :: c :: cs => readDigits 10 (c :: cs) 0
  | 'r' :: c :: cs => readDigits 10 (c :: cs) 0
  | _ => none

/-- A line without the spaces at its ends. -/
def trimSpaces (cs : List Char) : List Char :=
  ((cs.dropWhile (· == ' ')).reverse.dropWhile (· == ' ')).reverse

/-- The base register of `disp(reg)`, from the opening parenthesis on. -/
def readBase : List Char → Option Nat
  | '(' :: cs =>
    match cs.reverse with
    | ')' :: rev => readRegister (trimSpaces rev.reverse)
    | _ => none
  | _ => none

/-- An operand: a register, a constant, or a displacement with its base register. -/
def readOperand (cs : List Char) : Option AsmOperand :=
  match readRegister cs, readConst cs with
  | some n, _ => some (.reg n)
  | none, some v => some (.const v)
  | none, none =>
    match readConst (trimSpaces (cs.takeWhile (· != '('))), readBase (cs.dropWhile (· != '(')) with
    | some v, some n => some (.based v n)
    | _, _ => none

/-- The text between commas. -/
def splitCommas : List Char → List (List Char)
  | [] => [[]]
  | c :: cs =>
    match splitCommas cs with
    | [] => [[c]]
    | x :: xs => if c == ',' then [] :: x :: xs else (c :: x) :: xs

/-- The operands of a line, all of which must read. -/
def readOperands : List (List Char) → Option (List AsmOperand)
  | [] => some []
  | cs :: rest =>
    match readOperand (trimSpaces cs), readOperands rest with
    | some o, some os => some (o :: os)
    | _, _ => none

/-- A line: a mnemonic in either case, then operands separated by commas; `#` starts a comment. -/
def readLine (line : String) : Option AsmLine :=
  let text := trimSpaces ((line.toList.takeWhile (· != '#')).map Char.toLower)
  let word := text.takeWhile (· != ' ')
  match Mnemonic.all.find? (fun m => m.name.toList == word),
      readOperands (splitCommas (text.dropWhile (· != ' '))) with
  | some m, some os => some { mnemonic := m, operands := os }
  | _, _ => none

/-- The word of a line of text that stands at `pc`. -/
def assembleText (pc : Word) (line : String) : Option Word :=
  match readLine line with
  | some l => (assemble pc l).map encode
  | none => none

end Sys2Proof.Machine
end

