-- ==== Sys2Proof/Machine/Launch.lean ====
section
/-! DEFINITION. The launch (60_exceptions R228, 70_reset R240, R241): the state a run starts in, built from the
launch arguments. No instruction or event returns the machine to it. -/

namespace Sys2Proof.Machine

/-- The launch state (10_state R36, 70_reset R241): `pc = ENTRY_PC`, status `Running`, memory the image the
loader writes, every register at its launch argument. -/
def State.launch (l : Launch) : State :=
  { gpr := l.gpr
    pc := l.entryPc
    hi := l.hi
    lo := l.lo
    fpr := l.fpr
    mem := Memory.writeCells [] l.image
    status := .running
    params := l.params
    draws := 0 }

end Sys2Proof.Machine
end

