-- ==== Sys2Proof/Safety.lean ====
section
/-! DEFINITION. The terms claims are made in: what an instruction leaves unchanged, what it writes, which instructions
are control transfers, loads and stores, and what a safe run is. -/

namespace Sys2Proof.Machine

/-! ### What is left unchanged -/

/-- Every general register reads as before. -/
def SameRegs (s t : State) : Prop :=
  ∀ r : RegIdx, t.readReg r = s.readReg r

/-- Register `d` reads `v`, unless it is register 0, which keeps reading 0 (10_state R21, R22); every other general
register reads as before. -/
def WritesReg (d : RegIdx) (v : Word) (s t : State) : Prop :=
  ∀ r : RegIdx, t.readReg r = if r = d ∧ r ≠ 0#5 then v else s.readReg r

/-- Every byte of memory reads as before. -/
def SameMemory (s t : State) : Prop :=
  ∀ a : Nat, t.mem.read a = s.mem.read a

/-- Every byte of memory outside the `n` bytes from `a` on reads as before. -/
def SameMemoryOutside (a n : Nat) (s t : State) : Prop :=
  ∀ c : Nat, ¬(a ≤ c ∧ c < a + n) → t.mem.read c = s.mem.read c

/-- `HI` and `LO` are as before. -/
def SameHiLo (s t : State) : Prop :=
  t.hi = s.hi ∧ t.lo = s.lo

/-- The floating-point registers, the run status and the parameters are as before. -/
def SameContext (s t : State) : Prop :=
  t.fpr = s.fpr ∧ t.status = s.status ∧ t.params = s.params

/-- An instruction that completes and changes nothing but `pc` and register `d`, which receives `v`. -/
def OnlyWritesReg (d : RegIdx) (v : Word) (s t : State) : Prop :=
  WritesReg d v s t ∧ SameMemory s t ∧ SameHiLo s t ∧ SameContext s t ∧ t.draws = s.draws

/-- An instruction that completes and changes nothing but `pc`. -/
def OnlyWritesPc (s t : State) : Prop :=
  SameRegs s t ∧ SameMemory s t ∧ SameHiLo s t ∧ SameContext s t ∧ t.draws = s.draws

/-- The meaning `r` of an instruction at `s` completes: it writes register `d` with a value of which `P` holds, goes
on at `pc + 4` modulo 2^32 (10_state R25, R27) and changes nothing else. -/
def CompletesWriting (s : State) (r : Result) (d : RegIdx) (P : Word → Prop) : Prop :=
  ∃ (t : State) (v : Word), r = .next t ∧ P v ∧ OnlyWritesReg d v s t ∧ t.pc = s.pc + 4#32

/-- The meaning `r` of an instruction at `s` completes at address `p` and changes nothing else. -/
def CompletesAt (s : State) (r : Result) (p : Word) : Prop :=
  ∃ t : State, r = .next t ∧ t.pc = p ∧ OnlyWritesPc s t

/-- The meaning `r` of an instruction at `s` completes at address `p` with `d` holding `v`, and changes nothing else. -/
def CompletesLinking (s : State) (r : Result) (d : RegIdx) (v : Word) (p : Word) : Prop :=
  ∃ t : State, r = .next t ∧ t.pc = p ∧ OnlyWritesReg d v s t

/-- The meaning `r` of an instruction at `s` completes: it leaves in `HI` and `LO` values of which `P` holds, goes on at
`pc + 4` and changes nothing else but the counter of draws, which moves to `n`. -/
def CompletesHiLo (s : State) (r : Result) (n : Nat) (P : Word → Word → Prop) : Prop :=
  ∃ t : State, r = .next t ∧ P t.hi t.lo ∧ SameRegs s t ∧ SameMemory s t ∧ SameContext s t ∧
    t.draws = n ∧ t.pc = s.pc + 4#32

/-- The meaning `r` of an instruction at `s` completes: it stores the low bytes of `v`, `n` of them, at address `a` in
the byte order in force (20_memory R42), goes on at `pc + 4` and changes nothing else, no byte outside the
`n` bytes among it. -/
def CompletesStoring (s : State) (r : Result) (a n : Nat) (v : Word) : Prop :=
  ∃ t : State, r = .next t ∧
    (∀ i : Nat, i < n →
      t.mem.read (a + i) =
        match s.params.endian with
        | .big => v.extractLsb' (8 * (n - 1 - i)) 8
        | .little => v.extractLsb' (8 * i) 8) ∧
    SameMemoryOutside a n s t ∧ SameRegs s t ∧ SameHiLo s t ∧ SameContext s t ∧
    t.draws = s.draws ∧ t.pc = s.pc + 4#32

/-- The meaning `r` of an instruction, or of a step, at `s` is a fault and nothing else (60_exceptions R210): the status
becomes `Faulted(cause, epc, info)` with `epc = pc`, and every other component stays. -/
def Faults (s : State) (r : Result) (cause : Cause) (info : Option Word) : Prop :=
  r = .next { s with status := .faulted cause s.pc info }

/-! ### Where a branch goes, in exact arithmetic -/

/-- The target of a branch by 30_encoding R66, computed in the integers and taken modulo 2^32 at the end: the address
after the branch and the offset in bytes, which is the immediate itself (`BRANCH_OFFSET_SHIFT` 0) or four times
it (`BRANCH_OFFSET_SHIFT` 2). -/
def exactBranchTarget (s : State) (imm : Imm16) : Word :=
  BitVec.ofInt 32 (s.pc.toNat + 4 +
    match s.params.branchShift with
    | .byteOffset => imm.toInt
    | .wordOffset => imm.toInt * 4)

/-- Where a conditional branch goes (43_compare_branch R160). -/
def exactBranchPc (s : State) (imm : Imm16) (taken : Bool) : Word :=
  if taken then exactBranchTarget s imm else s.pc + 4#32

/-! ### Kinds of instruction -/

/-- The general register an instruction may write: the destination of 30_encoding R81, or the link register `$31` of
`jal`, `bltzal`, `bgezal` (30 R69). -/
def destination : Instr → Option RegIdx
  | .add rd _ _ | .addu rd _ _ | .sub rd _ _ | .subu rd _ _ => some rd
  | .and rd _ _ | .or rd _ _ | .xor rd _ _ | .nor rd _ _ => some rd
  | .slt rd _ _ | .sltu rd _ _ => some rd
  | .sllv rd _ _ | .srlv rd _ _ | .srav rd _ _ => some rd
  | .sll rd _ _ | .srl rd _ _ | .sra rd _ _ => some rd
  | .mfhi rd | .mflo rd => some rd
  | .addi rt _ _ | .addiu rt _ _ | .andi rt _ _ | .ori rt _ _ | .xori rt _ _ => some rt
  | .lb rt _ _ | .lh rt _ _ | .lw rt _ _ | .lbu rt _ _ | .lhu rt _ _ | .lui rt _ => some rt
  | .bltzal _ _ | .bgezal _ _ | .jal _ => some 31#5
  | .mult _ _ | .multu _ _ | .div _ _ | .divu _ _ => none
  | .sb _ _ _ | .sh _ _ _ | .sw _ _ _ => none
  | .beq _ _ _ | .bne _ _ _ | .blez _ _ | .bgtz _ _ | .bltz _ _ | .bgez _ _ => none
  | .j _ | .jr _ => none

/-- The branches and jumps, the instructions whose rules write `pc` (10_state R28). -/
def isControlTransfer : Mnemonic → Bool
  | .beq | .bne | .blez | .bgtz | .bltz | .bgez | .bltzal | .bgezal | .j | .jal | .jr => true
  | _ => false

/-- `sw`, `sh`, `sb`, the only instructions that write memory (10_state R20, R35). -/
def isStore : Mnemonic → Bool
  | .sw | .sh | .sb => true
  | _ => false

/-- The memory access of a load or a store: its kind, its width, its base register and its displacement (42_data_transfer
R140, 20_memory R47). -/
def memoryAccess : Instr → Option (AccessKind × Width × RegIdx × Imm16)
  | .lw _ imm rs => some (.load, .word, rs, imm)
  | .lh _ imm rs | .lhu _ imm rs => some (.load, .half, rs, imm)
  | .lb _ imm rs | .lbu _ imm rs => some (.load, .byte, rs, imm)
  | .sw _ imm rs => some (.store, .word, rs, imm)
  | .sh _ imm rs => some (.store, .half, rs, imm)
  | .sb _ imm rs => some (.store, .byte, rs, imm)
  | _ => none

/-- `mult`, `multu`, `div`, `divu`, the only instructions that write `HI` and `LO` (10_state R20, R29). -/
def writesHiLo : Mnemonic → Bool
  | .mult | .multu | .div | .divu => true
  | _ => false

/-- `add`, `addi`, `sub`, the only instructions that can raise `IntegerOverflow` (60_exceptions R201). -/
def mayOverflow : Mnemonic → Bool
  | .add | .addi | .sub => true
  | _ => false

/-! ### Runs -/

/-- `t` is reached from `s` by steps. -/
inductive Reaches : State → State → Prop where
  | refl (s : State) : Reaches s s
  | step {s t u : State} (h : step s = .next t) (r : Reaches t u) : Reaches s u

/-- A safe run: "no fault is reached" (60_exceptions R210). -/
def FaultFree (s : State) : Prop :=
  ∀ t, Reaches s t → ∀ cause epc info, t.status ≠ .faulted cause epc info

/-- A run that ends (60_exceptions R225, R227). -/
def Ends (s : State) : Prop :=
  ∃ t, Reaches s t ∧ t.status = .ended

end Sys2Proof.Machine
end

