-- ==== Sys2Proof/Certificates/Slice0/Obligations.lean ====
section
/-! DEFINITION. The statements for the provers. Each docstring says what the statement says and the rules of spec/ it
rests on; the words CompletesWriting, CompletesAt, CompletesStoring, Faults and their like are Safety.lean's. -/

open Sys2Proof Sys2Proof.Machine

/-- Words written out in the spec decode to the instructions they stand for. One worked word of each family (add,
mult, sll, sllv, addi, lw, sw, lui, bne, bltzal, slt, jal, jr) decodes to its instruction, and the damaged jr
figure 0x00500808 is reserved. (derived: R71, 30_encoding section 3, 95_test_vectors sections 1.1 to 1.8 and
2.6) -/
def Obligations.SpecWordsDecode : Prop :=
  decode 0x00430820#32 = .ok (.add 1 2 3) ∧ decode 0x00430018#32 = .ok (.mult 2 3) ∧
  decode 0x00020A80#32 = .ok (.sll 1 2 10) ∧ decode 0x00620804#32 = .ok (.sllv 1 2 3) ∧
  decode 0x20410064#32 = .ok (.addi 1 2 100) ∧ decode 0x8C410064#32 = .ok (.lw 1 100 2) ∧
  decode 0xAC8301F4#32 = .ok (.sw 3 500 4) ∧ decode 0x3C010028#32 = .ok (.lui 1 40) ∧
  decode 0x14220064#32 = .ok (.bne 1 2 100) ∧ decode 0x04300064#32 = .ok (.bltzal 1 100) ∧
  decode 0x0061282A#32 = .ok (.slt 5 3 1) ∧ decode 0x0C00C102#32 = .ok (.jal 0xC102) ∧
  decode 0x03E00008#32 = .ok (.jr 31) ∧ decode 0x00500808#32 = .error (.reserved 0x00500808#32)

/-- Decoding the word of any instruction gives the instruction back. For every instruction, with every operand at
every value of its field, decode (encode i) is i. (derived: R61, R62, R63, R70, R71, R72, R81) -/
def Obligations.EncodeThenDecode : Prop :=
  ∀ i : Instr, decode (encode i) = .ok i

/-- A word that decodes is the word of the instruction it decodes to. For every word w and instruction i, if w
decodes to i then encode i is w: no bit of an accepted word is ignored. (derived: R61, R62, R63, R70, R71, R73) -/
def Obligations.DecodeThenEncode : Prop :=
  ∀ (w : Word) (i : Instr), decode w = .ok i → encode i = w

/-- A word decodes to the instruction of the one row that admits it, or is reserved. No word is admitted by two rows
of the opcode table; a word that a row admits decodes to that row's instruction; a word no row admits raises
ReservedInstruction with the word as info. (stated: R70) -/
def Obligations.DecodingTakesTheUniqueRow : Prop :=
  ∀ w : Word,
    (∀ m n : Mnemonic, m.admits w = true → n.admits w = true → m = n) ∧
    (∀ m : Mnemonic, m.admits w = true → decodeOrRaise w = .ok (m.instr w)) ∧
    ((∀ m : Mnemonic, m.admits w = false) → decodeOrRaise w = .error ⟨.reservedInstruction, some w⟩)

/-- The opcode table is the opcode map in prose with the unused fields zero. For every word and mnemonic, the row of
the table admits the word exactly if the map of R72 gives the word that mnemonic and the fields R73 lists for it
are zero. (stated: R72, R73) -/
def Obligations.OpcodeMapAgreesWithTable : Prop :=
  ∀ (w : Word) (m : Mnemonic),
    m.admits w = true ↔ opcodeMap w = some m ∧ unusedFieldsZero m w = true

/-- The four bytes of an instruction decode to it in either byte order and no byte after them is read. In both byte
orders, the bytes of an instruction followed by any bytes decode to the instruction, with exactly the bytes
after it left. (derived: R45, R60) -/
def Obligations.InstructionBytesDecode : Prop :=
  ∀ (e : Endian) (i : Instr) (rest : List Byte),
    decodeBytes e (encodeBytes e i ++ rest) = .ok (i, rest)

/-- An instruction written as an assembly line assembles to itself. At every address, the assembly line of an
instruction, its operands in the order of R81, assembles to the same instruction. (derived: R81, R82, R83, R84) -/
def Obligations.AssembleDisassembled : Prop :=
  ∀ (pc : Word) (i : Instr), assemble pc (disassemble pc i) = some i

/-- A jump assembled for an address goes to that address. If the assembler accepts the address v for a jump at pc,
the address formed from its target field is v, and v is a multiple of 4. (derived: R67, R83) -/
def Obligations.AssembledJumpReachesItsAddress : Prop :=
  ∀ (pc : Word) (v : Int) (target : Target26), asmTarget pc v = some target →
    ((jumpAddress (pc + 4#32) target).toNat : Int) = v ∧ v % 4 = 0

/-- A launch leaves pc at ENTRY_PC, status Running, x[0] 0, the registers at their arguments and the image in
memory. For all launch arguments: x[0] reads 0; pc is ENTRY_PC; status is Running; x[n], HI, LO and f hold their
arguments; and every byte of an image with distinct addresses in the 2^32 bytes reads as the loader wrote it.
(derived: R36, R228, R241) -/
def Obligations.LaunchState : Prop :=
  ∀ l : Launch,
    (State.launch l).readReg 0#5 = 0#32 ∧ (State.launch l).pc = l.entryPc ∧
    (State.launch l).status = .running ∧
    (∀ (n : Nat) (h : n < 31), (State.launch l).readReg (BitVec.ofNat 5 (n + 1)) = l.gpr[n]) ∧
    (State.launch l).hi = l.hi ∧ (State.launch l).lo = l.lo ∧ (State.launch l).fpr = l.fpr ∧
    (State.launch l).params = l.params ∧
    (imageInSpace l.image = true → (l.image.map Prod.fst).Nodup →
      ∀ c ∈ l.image, (State.launch l).mem.read c.1 = c.2)

/-- The reset state is a well-formed launch and meets the invariant. State.reset is the launch of Launch.reset,
whose ENTRY_PC is a multiple of 4; its memory is in canonical form, x[0] reads 0 and status is Running. The
other register values at reset are the model's choice (log entries 1 to 7) and nothing is said of them.
(derived: R36, R241) -/
def Obligations.ResetIsAWellFormedLaunch : Prop :=
  State.reset = State.launch Launch.reset ∧ Launch.reset.wf = true ∧ State.reset.wf = true ∧
    State.reset.readReg 0#5 = 0#32 ∧ State.reset.pc.toNat % 4 = 0 ∧ State.reset.status = .running

/-- Every well-formed launch starts in a state that meets the invariant. For all launch arguments that pass the
checks, memory is in canonical form in the launch state. The canonical form is the model's own (log entry 7).
(derived: R36, R228) -/
def Obligations.WellFormedLaunchMeetsInvariant : Prop :=
  ∀ l : Launch, l.wf = true → (State.launch l).wf = true

/-- Every step keeps memory in canonical form. From every state that meets the invariant, not only those a run
reaches, a step that answers a next state gives one that meets it. The canonical form (rising addresses below
2^32, no entry equal to an unlisted byte) is the model's own (log entry 7). (derived: R34, R40, R42) -/
def Obligations.StepKeepsInvariant : Prop :=
  ∀ s t : State, s.wf = true → step s = .next t → t.wf = true

/-- No step changes ENDIAN, MEM_VALID, BRANCH_OFFSET_SHIFT or END_PC. The parameters of a run are the same after
every step. (derived: R8, R43, 00_scope section 4) -/
def Obligations.StepKeepsParameters : Prop :=
  ∀ s t : State, step s = .next t → t.params = s.params

/-- The floating-point registers never change and never influence anything else. A step leaves f[0..31] as they are,
and the same step from the same state with any other floating-point registers does the same to every other
component and stops for the same reason. (derived: R32) -/
def Obligations.FloatingPointRegistersAreInert : Prop :=
  ∀ (s : State) (f : Vector Word 32),
    (∀ t : State, step s = .next t → t.fpr = s.fpr) ∧
    step { s with fpr := f } =
      match step s with
      | .next t => .next { t with fpr := f }
      | .fault r => .fault r
      | .refused r => .refused r

/-- Every assignment of bytes to the 2^32 addresses is some canonical memory. For every function from addresses to
bytes there is a memory in canonical form that reads as it on the whole address space, so statements about every
state cover every launch image, whatever an unlisted byte reads as. (derived: R34, R36, R40) -/
def Obligations.EveryMemoryImageIsAMemory : Prop :=
  ∀ f : Nat → Byte, ∃ m : Memory, m.wf = true ∧ ∀ a : Nat, a < 2 ^ 32 → m.read a = f a

/-- Every MEM_VALID predicate is some list of refused regions. For every predicate on the 2^32 addresses there are
parameters whose refused regions accept exactly the addresses of the predicate, so statements about every state
cover every platform map. (derived: R8, R48) -/
def Obligations.EveryMemValidIsExpressible : Prop :=
  ∀ (p : Params) (valid : Nat → Bool), ∃ regions : List Region,
    ∀ a : Nat, a < 2 ^ 32 → Params.memValid { p with refused := regions } a = valid a

/-- No instruction stops the model: every meaning answers a next state. For every instruction and every state, exec
answers a next state, never a fault outcome and never a refusal. (derived: R200, R210, R227) -/
def Obligations.EveryInstructionAnswersANextState : Prop :=
  ∀ (i : Instr) (s : State), ∃ t : State, exec i s = .next t

/-- A Running state always has a next state; a faulted and an ended state have none. From a state with status
Running a step answers a next state; from a Faulted or an Ended state it answers none, and says which. (derived:
R210, R225, R227) -/
def Obligations.OnlyRunningStatesStep : Prop :=
  ∀ s : State,
    (s.status = .running → ∃ t : State, step s = .next t) ∧
    (∀ cause epc info, s.status = .faulted cause epc info →
      step s = .fault (.stoppedByFault cause epc info)) ∧
    (s.status = .ended → step s = .fault .runIsOver)

/-- A step that faults changes the status and nothing else, records epc = pc, and is the last. If a step from a
Running state gives a Faulted state, that state is the old one but for the status, its epc is the old pc, and it
has no further step. (stated: R210) -/
def Obligations.FaultsArePrecise : Prop :=
  ∀ (s t : State) (cause : Cause) (epc : Word) (info : Option Word),
    s.status = .running → step s = .next t → t.status = .faulted cause epc info →
      t = { s with status := .faulted cause s.pc info } ∧ epc = s.pc ∧
      step t = .fault (.stoppedByFault cause epc info)

/-- Only add, addi, sub and the loads and stores can raise, and only their own causes. An instruction executed in a
Running state that leaves the state not Running has left it Faulted, with IntegerOverflow if it is add, addi or
sub, and with the AddressError or BusError of its own access, its effective address as info, if it is a load or
store; no other instruction does. (derived: R163, R200, R201) -/
def Obligations.OnlyNamedInstructionsRaise : Prop :=
  ∀ (i : Instr) (s t : State), s.status = .running → exec i s = .next t → t.status ≠ .running →
    (mayOverflow i.mnemonic = true ∧ t.status = .faulted .integerOverflow s.pc none) ∨
    (∃ k w rs imm, memoryAccess i = some (k, w, rs, imm) ∧
      (t.status = .faulted (.addressError k) s.pc (some (s.effectiveAddress rs imm)) ∨
       t.status = .faulted (.busError k) s.pc (some (s.effectiveAddress rs imm))))

/-- A step that starts at END_PC ends the run, whatever END_PC is, and no step follows. From a Running state with pc
= END_PC, aligned or not, the step only sets status to Ended, and that state has no further step. (stated: R225) -/
def Obligations.RunEndsAtEndPc : Prop :=
  ∀ s : State, s.status = .running → s.pc = s.params.endPc →
    step s = .next { s with status := .ended } ∧
    step { s with status := .ended } = .fault .runIsOver

/-- A fetch faults on alignment first, then on MEM_VALID, then on a reserved word. From a Running state not at
END_PC: a misaligned pc gives AddressError(fetch, pc); an aligned pc of which MEM_VALID refuses a byte gives
BusError(fetch, pc); an aligned, accepted pc at which a word stands that does not decode gives
ReservedInstruction with the word. Each time nothing but the status changes. (derived: R12, R46, R202, R203,
R209) -/
def Obligations.FetchFaultsInOrder : Prop :=
  ∀ s : State, s.status = .running → s.pc ≠ s.params.endPc →
    (s.pc.toNat % 4 ≠ 0 → Faults s (step s) (.addressError .fetch) (some s.pc)) ∧
    (s.pc.toNat % 4 = 0 → (∃ i : Nat, i < 4 ∧ Params.memValid s.params (s.pc.toNat + i) = false) →
      Faults s (step s) (.busError .fetch) (some s.pc)) ∧
    (∀ w : Word, s.pc.toNat % 4 = 0 →
      (∀ i : Nat, i < 4 → Params.memValid s.params (s.pc.toNat + i) = true) →
      (∀ i : Nat, i < 4 → s.mem.read (s.pc.toNat + i) = byteOf s.params.endian .word w i) →
      (∀ j : Instr, encode j ≠ w) →
      Faults s (step s) .reservedInstruction (some w))

/-- When the word at pc decodes to an instruction, the step is the execution of that instruction. From a Running
state not at END_PC, with pc a multiple of 4 and accepted by MEM_VALID, if the four bytes at pc are those of a
word that decodes to i in the byte order in force, step is exec of i at the same state; nothing is added around
it. (derived: R12, R45, R70) -/
def Obligations.StepRunsTheDecodedInstruction : Prop :=
  ∀ (s : State) (w : Word) (i : Instr), s.status = .running → s.pc ≠ s.params.endPc →
    s.pc.toNat % 4 = 0 →
    (∀ j : Nat, j < 4 → Params.memValid s.params (s.pc.toNat + j) = true) →
    (∀ j : Nat, j < 4 → s.mem.read (s.pc.toNat + j) = byteOf s.params.endian .word w j) →
    decode w = .ok i → step s = exec i s

/-- An instruction placed at pc is the one the next step runs. From a Running state not at END_PC that meets the
invariant, with pc a multiple of 4 and accepted by MEM_VALID, the step after the word of i is placed at pc is
exec of i. (derived: R12, R45, R228) -/
def Obligations.PlacedInstructionRuns : Prop :=
  ∀ (s : State) (i : Instr), s.wf = true → s.status = .running → s.pc ≠ s.params.endPc →
    s.pc.toNat % 4 = 0 →
    (∀ j : Nat, j < 4 → Params.memValid s.params (s.pc.toNat + j) = true) →
    step (s.withFetchWord 32 (encode i).toNat) = exec i (s.withFetchWord 32 (encode i).toNat)

/-- The all-zero word, and any instruction whose destination is $0 and that does not fault, only advances pc. The
word 0 decodes to sll $0,$0,0; and an instruction whose only destination is $0, executed in a Running state
without a fault, gives the state before it with pc + 4. (derived: R22, R75) -/
def Obligations.ZeroWordAndZeroDestinationDoNothing : Prop :=
  decode 0x00000000#32 = .ok (.sll 0 0 0) ∧
  ∀ (i : Instr) (s t : State), destination i = some 0#5 → s.status = .running →
    exec i s = .next t → t.status = .running → t = { s with pc := s.pc + 4#32 }

/-- A value written is read back at the same width, for every width and byte order. In a state that meets the
invariant, if MemWrite of v at an address succeeds, MemRead of the same width at that address, as a load or as a
fetch, then gives v. (derived: R41, R42, R45, R50) -/
def Obligations.WriteThenReadGivesTheValue : Prop :=
  ∀ (s t : State) (k : AccessKind) (w : Width) (a : Word) (v : BitVec w.bits), s.wf = true →
    s.memWrite w a v = .ok t → t.memRead k w a = .ok v

/-- MemWrite writes exactly its bytes in the byte order in force, or raises and writes none. MemWrite of an aligned,
accepted access writes byte i of the value by R42 at address a + i, leaves every other byte and every other
component as it was; a misaligned address raises AddressError(store, a); an aligned address of which MEM_VALID
refuses a byte raises BusError(store, a). (stated: R42) -/
def Obligations.MemWriteWritesItsBytesOrRaises : Prop :=
  ∀ (s : State) (w : Width) (a : Word) (v : BitVec w.bits), s.wf = true →
    (a.toNat % w.bytes ≠ 0 → s.memWrite w a v = .error ⟨.addressError .store, some a⟩) ∧
    (a.toNat % w.bytes = 0 →
      (∃ i : Nat, i < w.bytes ∧ Params.memValid s.params (a.toNat + i) = false) →
      s.memWrite w a v = .error ⟨.busError .store, some a⟩) ∧
    (a.toNat % w.bytes = 0 →
      (∀ i : Nat, i < w.bytes → Params.memValid s.params (a.toNat + i) = true) →
      ∃ m : Memory, s.memWrite w a v = .ok { s with mem := m } ∧
        ∀ c : Nat, m.read c =
          if a.toNat ≤ c ∧ c < a.toNat + w.bytes then
            match s.params.endian with
            | .big => v.extractLsb' (8 * (w.bytes - 1 - (c - a.toNat))) 8
            | .little => v.extractLsb' (8 * (c - a.toNat)) 8
          else s.mem.read c)

/-- MemRead gives the value made of its bytes in the byte order in force, or raises. MemRead of an aligned, accepted
access gives the value whose bytes, most significant first when big and least significant first when little, are
those at the rising addresses; a misaligned address raises AddressError and an aligned one of which MEM_VALID
refuses a byte raises BusError, for the kind of the access. (stated: R41) -/
def Obligations.MemReadAssemblesItsBytesOrRaises : Prop :=
  ∀ (s : State) (k : AccessKind) (w : Width) (a : Word),
    (a.toNat % w.bytes ≠ 0 → s.memRead k w a = .error ⟨.addressError k, some a⟩) ∧
    (a.toNat % w.bytes = 0 →
      (∃ i : Nat, i < w.bytes ∧ Params.memValid s.params (a.toNat + i) = false) →
      s.memRead k w a = .error ⟨.busError k, some a⟩) ∧
    (a.toNat % w.bytes = 0 →
      (∀ i : Nat, i < w.bytes → Params.memValid s.params (a.toNat + i) = true) →
      ∃ v : BitVec w.bits, s.memRead k w a = .ok v ∧
        ∀ i : Nat, i < w.bytes →
          s.mem.read (a.toNat + i) =
            match s.params.endian with
            | .big => v.extractLsb' (8 * (w.bytes - 1 - i)) 8
            | .little => v.extractLsb' (8 * i) 8)

/-- After sw, the word reads back whole, its first byte and its last halfword by the byte order. After a sw of v
that is aligned and accepted, a word read at the address gives v, a byte read there gives v[31:24] when big and
v[7:0] when little, and a halfword read two bytes on gives v[15:0] when big and v[31:16] when little. (derived:
R43, R152) -/
def Obligations.StoredWordReadBackInParts : Prop :=
  ∀ (s : State) (rt rs : RegIdx) (imm : Imm16), s.wf = true →
    (s.effectiveAddress rs imm).toNat % 4 = 0 →
    (∀ j : Nat, j < 4 →
      Params.memValid s.params ((s.effectiveAddress rs imm).toNat + j) = true) →
    ∃ t : State, exec (.sw rt imm rs) s = .next t ∧
      t.memRead .load .word (s.effectiveAddress rs imm) = .ok (s.readReg rt) ∧
      t.memRead .load .byte (s.effectiveAddress rs imm) =
        .ok (match s.params.endian with
          | .big => (s.readReg rt).extractLsb' 24 8
          | .little => (s.readReg rt).extractLsb' 0 8) ∧
      t.memRead .load .half (s.effectiveAddress rs imm + 2) =
        .ok (match s.params.endian with
          | .big => (s.readReg rt).extractLsb' 0 16
          | .little => (s.readReg rt).extractLsb' 16 16)

/-- An instruction word stored with sw is the one fetched at that address next. After a sw of the word of i that is
aligned and accepted, a fetch with pc at that address gives i, with no operation between, in either byte order.
(derived: R45, R53, R249) -/
def Obligations.StoredInstructionIsFetched : Prop :=
  ∀ (s : State) (i : Instr) (rt rs : RegIdx) (imm : Imm16), s.wf = true →
    s.readReg rt = encode i →
    (s.effectiveAddress rs imm).toNat % 4 = 0 →
    (∀ j : Nat, j < 4 →
      Params.memValid s.params ((s.effectiveAddress rs imm).toNat + j) = true) →
    ∃ t : State, exec (.sw rt imm rs) s = .next t ∧
      (t.setPc (s.effectiveAddress rs imm)).fetchInstr = .ok i

/-- The effective address is base plus signed displacement modulo 2^32. The effective address is the exact sum of
the base register, read as unsigned, and the signed displacement, taken modulo 2^32. (derived: R140) -/
def Obligations.EffectiveAddressWraps : Prop :=
  ∀ (s : State) (rs : RegIdx) (imm : Imm16),
    s.effectiveAddress rs imm = BitVec.ofInt 32 (((s.readReg rs).toNat : Int) + imm.toInt)

/-- add, sub, addi write the exact signed result when it fits in 32 bits and fault otherwise. If the exact signed
sum or difference lies in -2^31 .. 2^31-1 the destination receives it, pc advances by 4 and nothing else
changes; otherwise IntegerOverflow is taken with nothing written, for every destination, $0 too. (stated: R92,
R100, R101, R102) -/
def Obligations.AddSubAddiResultOrOverflow : Prop :=
  (∀ (s : State) (rd rs rt : RegIdx),
    let e := (s.readReg rs).toInt + (s.readReg rt).toInt
    (-(2 ^ 31) ≤ e ∧ e ≤ 2 ^ 31 - 1 →
      CompletesWriting s (exec (.add rd rs rt) s) rd fun v => v.toInt = e) ∧
    (e < -(2 ^ 31) ∨ 2 ^ 31 - 1 < e → Faults s (exec (.add rd rs rt) s) .integerOverflow none)) ∧
  (∀ (s : State) (rd rs rt : RegIdx),
    let e := (s.readReg rs).toInt - (s.readReg rt).toInt
    (-(2 ^ 31) ≤ e ∧ e ≤ 2 ^ 31 - 1 →
      CompletesWriting s (exec (.sub rd rs rt) s) rd fun v => v.toInt = e) ∧
    (e < -(2 ^ 31) ∨ 2 ^ 31 - 1 < e → Faults s (exec (.sub rd rs rt) s) .integerOverflow none)) ∧
  (∀ (s : State) (rt rs : RegIdx) (imm : Imm16),
    let e := (s.readReg rs).toInt + imm.toInt
    (-(2 ^ 31) ≤ e ∧ e ≤ 2 ^ 31 - 1 →
      CompletesWriting s (exec (.addi rt rs imm) s) rt fun v => v.toInt = e) ∧
    (e < -(2 ^ 31) ∨ 2 ^ 31 - 1 < e → Faults s (exec (.addi rt rs imm) s) .integerOverflow none)) ∧
  (∀ a b : Word,
    (addOverflows a b = true ↔ a.msb = b.msb ∧ (a + b).msb ≠ a.msb) ∧
    (subOverflows a b = true ↔ a.msb ≠ b.msb ∧ (a - b).msb ≠ a.msb))

/-- addu, subu, addiu write the result modulo 2^32 and never fault. The destination receives the exact sum or
difference modulo 2^32, the immediate of addiu sign-extended; pc advances by 4 and nothing else changes, for all
operands. (stated: R103, R104, R105) -/
def Obligations.WrappingAddSubAddiu : Prop :=
  (∀ (s : State) (rd rs rt : RegIdx),
    CompletesWriting s (exec (.addu rd rs rt) s) rd fun v =>
      v.toNat = ((s.readReg rs).toNat + (s.readReg rt).toNat) % 2 ^ 32) ∧
  (∀ (s : State) (rd rs rt : RegIdx),
    CompletesWriting s (exec (.subu rd rs rt) s) rd fun v =>
      (v.toNat : Int) = (((s.readReg rs).toNat : Int) - (s.readReg rt).toNat) % 2 ^ 32) ∧
  (∀ (s : State) (rt rs : RegIdx) (imm : Imm16),
    CompletesWriting s (exec (.addiu rt rs imm) s) rt fun v =>
      (v.toNat : Int) = (((s.readReg rs).toNat : Int) + imm.toInt) % 2 ^ 32)

/-- mult and multu leave the exact 64-bit product in HI and LO. HI and LO together are the exact signed product as
64-bit two's complement after mult and the exact unsigned product after multu; no general register and no memory
changes, pc advances by 4. (stated: R106, R107) -/
def Obligations.MultiplyGivesTheExactProduct : Prop :=
  (∀ (s : State) (rs rt : RegIdx),
    CompletesHiLo s (exec (.mult rs rt) s) s.draws fun h l =>
      (h ++ l).toInt = (s.readReg rs).toInt * (s.readReg rt).toInt) ∧
  (∀ (s : State) (rs rt : RegIdx),
    CompletesHiLo s (exec (.multu rs rt) s) s.draws fun h l =>
      (h ++ l).toNat = (s.readReg rs).toNat * (s.readReg rt).toNat)

/-- LO is the same after mult and multu of the same operands. Executed at the same state with the same operands,
mult and multu leave the same LO. (derived: R93) -/
def Obligations.ProductLowWordIgnoresSign : Prop :=
  ∀ (s t u : State) (rs rt : RegIdx),
    exec (.mult rs rt) s = .next t → exec (.multu rs rt) s = .next u → t.lo = u.lo

/-- div and divu leave the quotient in LO and the remainder in HI. With a divisor not zero (and not 0x80000000 by
0xFFFFFFFF for div): LO is the quotient truncated toward zero and HI the remainder, zero or with the sign of the
dividend and smaller than the divisor in magnitude; for divu the natural-number quotient and remainder. Nothing
else changes but pc, which advances by 4. (stated: R94) -/
def Obligations.DivideGivesQuotientAndRemainder : Prop :=
  (∀ (s : State) (rs rt : RegIdx), s.readReg rt ≠ 0#32 →
    ¬(s.readReg rs = 0x80000000#32 ∧ s.readReg rt = 0xFFFFFFFF#32) →
    CompletesHiLo s (exec (.div rs rt) s) s.draws fun h l =>
      (s.readReg rs).toInt = l.toInt * (s.readReg rt).toInt + h.toInt ∧
      h.toInt.natAbs < (s.readReg rt).toInt.natAbs ∧
      (h.toInt = 0 ∨ (h.toInt < 0 ↔ (s.readReg rs).toInt < 0))) ∧
  (∀ (s : State) (rs rt : RegIdx), s.readReg rt ≠ 0#32 →
    CompletesHiLo s (exec (.divu rs rt) s) s.draws fun h l =>
      (s.readReg rs).toNat = l.toNat * (s.readReg rt).toNat + h.toNat ∧
      h.toNat < (s.readReg rt).toNat)

/-- div and divu by zero, and div of 0x80000000 by -1, complete with two fresh unpredictable values. In the
undefined cases the instruction takes no fault: pc advances by 4, no general register, no memory byte and no
other component changes, and HI and LO are the next two draws of the free value. That the draws are numbered is
the model's choice (log entry 8); nothing is known of their values. (derived: R95, R108, R109) -/
def Obligations.UndefinedDivisionGoesOn : Prop :=
  (∀ (s : State) (rs rt : RegIdx),
    s.readReg rt = 0#32 ∨ (s.readReg rs = 0x80000000#32 ∧ s.readReg rt = 0xFFFFFFFF#32) →
    CompletesHiLo s (exec (.div rs rt) s) (s.draws + 2) fun h l =>
      h = Config.unpredictable32 s.draws ∧ l = Config.unpredictable32 (s.draws + 1)) ∧
  (∀ (s : State) (rs rt : RegIdx), s.readReg rt = 0#32 →
    CompletesHiLo s (exec (.divu rs rt) s) (s.draws + 2) fun h l =>
      h = Config.unpredictable32 s.draws ∧ l = Config.unpredictable32 (s.draws + 1))

/-- mfhi and mflo copy HI and LO to the destination. The destination receives HI (mfhi) or LO (mflo), whatever was
left there; HI and LO are unchanged, pc advances by 4 and nothing else changes. (stated: R110, R111) -/
def Obligations.MoveFromHiLoCopies : Prop :=
  (∀ (s : State) (rd : RegIdx), CompletesWriting s (exec (.mfhi rd) s) rd fun v => v = s.hi) ∧
  (∀ (s : State) (rd : RegIdx), CompletesWriting s (exec (.mflo rd) s) rd fun v => v = s.lo)

/-- and, or, xor, nor act on each of the 32 bits independently. Bit k of the destination is the operation applied to
bit k of each operand, nor being the complement of or; pc advances by 4 and nothing else changes. (stated: R112,
R120, R121, R122, R123) -/
def Obligations.LogicalRegisterForms : Prop :=
  ∀ (s : State) (rd rs rt : RegIdx),
    let a := s.readReg rs
    let b := s.readReg rt
    CompletesWriting s (exec (.and rd rs rt) s) rd
      (fun v => ∀ k : Nat, k < 32 → v.getLsbD k = (a.getLsbD k && b.getLsbD k)) ∧
    CompletesWriting s (exec (.or rd rs rt) s) rd
      (fun v => ∀ k : Nat, k < 32 → v.getLsbD k = (a.getLsbD k || b.getLsbD k)) ∧
    CompletesWriting s (exec (.xor rd rs rt) s) rd
      (fun v => ∀ k : Nat, k < 32 → v.getLsbD k = (a.getLsbD k ^^ b.getLsbD k)) ∧
    CompletesWriting s (exec (.nor rd rs rt) s) rd
      (fun v => ∀ k : Nat, k < 32 → v.getLsbD k = !(a.getLsbD k || b.getLsbD k))

/-- andi, ori, xori combine a register with the zero-extended immediate. Bit k of the destination combines bit k of
x[rs] with bit k of the immediate for k < 16 and with 0 above: andi clears the upper half, ori and xori keep it;
pc advances by 4 and nothing else changes. (stated: R113, R124, R125, R126) -/
def Obligations.LogicalImmediateForms : Prop :=
  ∀ (s : State) (rt rs : RegIdx) (imm : Imm16),
    let a := s.readReg rs
    CompletesWriting s (exec (.andi rt rs imm) s) rt
      (fun v => ∀ k : Nat, k < 32 → v.getLsbD k = if k < 16 then a.getLsbD k && imm.getLsbD k else false) ∧
    CompletesWriting s (exec (.ori rt rs imm) s) rt
      (fun v => ∀ k : Nat, k < 32 →
        v.getLsbD k = if k < 16 then a.getLsbD k || imm.getLsbD k else a.getLsbD k) ∧
    CompletesWriting s (exec (.xori rt rs imm) s) rt
      (fun v => ∀ k : Nat, k < 32 →
        v.getLsbD k = if k < 16 then a.getLsbD k ^^ imm.getLsbD k else a.getLsbD k)

/-- sll, srl, sra shift x[rt] by shamt places, zeros or the sign entering. Bit k of the destination is bit k - shamt
of x[rt] for sll (0 below shamt), bit k + shamt for srl (0 above) and sra (the sign bit above); pc advances by 4
and nothing else changes. (stated: R127, R128, R129) -/
def Obligations.ShiftsByConstant : Prop :=
  ∀ (s : State) (rd rt : RegIdx) (shamt : Shamt),
    let a := s.readReg rt
    let n := shamt.toNat
    CompletesWriting s (exec (.sll rd rt shamt) s) rd
      (fun v => ∀ k : Nat, k < 32 → v.getLsbD k = if k < n then false else a.getLsbD (k - n)) ∧
    CompletesWriting s (exec (.srl rd rt shamt) s) rd
      (fun v => ∀ k : Nat, k < 32 → v.getLsbD k = if k + n < 32 then a.getLsbD (k + n) else false) ∧
    CompletesWriting s (exec (.sra rd rt shamt) s) rd
      (fun v => ∀ k : Nat, k < 32 → v.getLsbD k = if k + n < 32 then a.getLsbD (k + n) else a.getLsbD 31)

/-- sllv, srlv, srav shift x[rt] by the low five bits of x[rs]. As the constant shifts, with the amount x[rs] modulo
32; the upper bits of x[rs] do not matter. pc advances by 4 and nothing else changes. (stated: R130, R131, R132) -/
def Obligations.ShiftsByRegister : Prop :=
  ∀ (s : State) (rd rt rs : RegIdx),
    let a := s.readReg rt
    let n := (s.readReg rs).toNat % 32
    CompletesWriting s (exec (.sllv rd rt rs) s) rd
      (fun v => ∀ k : Nat, k < 32 → v.getLsbD k = if k < n then false else a.getLsbD (k - n)) ∧
    CompletesWriting s (exec (.srlv rd rt rs) s) rd
      (fun v => ∀ k : Nat, k < 32 → v.getLsbD k = if k + n < 32 then a.getLsbD (k + n) else false) ∧
    CompletesWriting s (exec (.srav rd rt rs) s) rd
      (fun v => ∀ k : Nat, k < 32 → v.getLsbD k = if k + n < 32 then a.getLsbD (k + n) else a.getLsbD 31)

/-- lw, lh, lhu, lb, lbu write the value read, sign- or zero-extended. If MemRead at the effective address gives a
value, lw writes it, lh and lb write the word with the same signed value, lhu and lbu the word with the same
unsigned value; pc advances by 4, memory and everything else stay. When MemRead gives a value is said by
MemReadAssemblesItsBytesOrRaises. (derived: R141, R142, R146, R147, R148, R149, R150) -/
def Obligations.LoadsWriteWhatIsRead : Prop :=
  (∀ (s : State) (rt rs : RegIdx) (imm : Imm16) (m : Word),
    s.memRead .load .word (s.effectiveAddress rs imm) = .ok m →
    CompletesWriting s (exec (.lw rt imm rs) s) rt fun v => v = m) ∧
  (∀ (s : State) (rt rs : RegIdx) (imm : Imm16) (m : BitVec 16),
    s.memRead .load .half (s.effectiveAddress rs imm) = .ok m →
    CompletesWriting s (exec (.lh rt imm rs) s) rt (fun v => v.toInt = m.toInt) ∧
    CompletesWriting s (exec (.lhu rt imm rs) s) rt (fun v => v.toNat = m.toNat)) ∧
  (∀ (s : State) (rt rs : RegIdx) (imm : Imm16) (m : Byte),
    s.memRead .load .byte (s.effectiveAddress rs imm) = .ok m →
    CompletesWriting s (exec (.lb rt imm rs) s) rt (fun v => v.toInt = m.toInt) ∧
    CompletesWriting s (exec (.lbu rt imm rs) s) rt (fun v => v.toNat = m.toNat))

/-- sw, sh, sb store the low 4, 2, 1 bytes of x[rt] and change nothing else. At an aligned effective address that
MEM_VALID accepts, the bytes stored are those of x[rt] in the byte order in force, every byte outside them and
every register is as before, and pc advances by 4. (stated: R143, R144, R145) -/
def Obligations.StoresWriteTheirBytes : Prop :=
  ∀ (s : State) (rt rs : RegIdx) (imm : Imm16), s.wf = true →
    let a := (s.effectiveAddress rs imm).toNat
    let accepted := fun n : Nat => ∀ j : Nat, j < n → Params.memValid s.params (a + j) = true
    (a % 4 = 0 → accepted 4 → CompletesStoring s (exec (.sw rt imm rs) s) a 4 (s.readReg rt)) ∧
    (a % 4 ≠ 0 → Faults s (exec (.sw rt imm rs) s) (.addressError .store) (some (s.effectiveAddress rs imm))) ∧
    (a % 4 = 0 → ¬accepted 4 →
      Faults s (exec (.sw rt imm rs) s) (.busError .store) (some (s.effectiveAddress rs imm))) ∧
    (a % 2 = 0 → accepted 2 → CompletesStoring s (exec (.sh rt imm rs) s) a 2 (s.readReg rt)) ∧
    (a % 2 ≠ 0 → Faults s (exec (.sh rt imm rs) s) (.addressError .store) (some (s.effectiveAddress rs imm))) ∧
    (a % 2 = 0 → ¬accepted 2 →
      Faults s (exec (.sh rt imm rs) s) (.busError .store) (some (s.effectiveAddress rs imm))) ∧
    (accepted 1 → CompletesStoring s (exec (.sb rt imm rs) s) a 1 (s.readReg rt)) ∧
    (¬accepted 1 →
      Faults s (exec (.sb rt imm rs) s) (.busError .store) (some (s.effectiveAddress rs imm)))

/-- A misaligned load or store faults with AddressError and has no effect. A load or store of 4 or 2 bytes whose
effective address is not a multiple of its width takes AddressError(load, ea) or AddressError(store, ea):
nothing is read into a register or written. Byte accesses are never misaligned. (stated: R44) -/
def Obligations.MisalignedAccessFaults : Prop :=
  (∀ (i : Instr) (s : State) (k : AccessKind) (w : Width) (rs : RegIdx) (imm : Imm16),
    memoryAccess i = some (k, w, rs, imm) →
    (s.effectiveAddress rs imm).toNat % w.bytes ≠ 0 →
    Faults s (exec i s) (.addressError k) (some (s.effectiveAddress rs imm))) ∧
  (∀ (i : Instr) (s t : State) (k : AccessKind) (rs : RegIdx) (imm : Imm16),
    memoryAccess i = some (k, .byte, rs, imm) → s.status = .running → exec i s = .next t →
    ∀ epc info, t.status ≠ .faulted (.addressError k) epc info)

/-- An aligned load or store of which MEM_VALID refuses a byte faults with BusError and has no effect. A load or
store at an aligned effective address of which MEM_VALID refuses some byte takes BusError for its kind with the
effective address as info, after the alignment check, and changes nothing else. (derived: R142, R201, R205,
R209) -/
def Obligations.RefusedAccessFaults : Prop :=
  ∀ (i : Instr) (s : State) (k : AccessKind) (w : Width) (rs : RegIdx) (imm : Imm16) (j : Nat),
    memoryAccess i = some (k, w, rs, imm) →
    (s.effectiveAddress rs imm).toNat % w.bytes = 0 → j < w.bytes →
    Params.memValid s.params ((s.effectiveAddress rs imm).toNat + j) = false →
    Faults s (exec i s) (.busError k) (some (s.effectiveAddress rs imm))

/-- lui writes the immediate times 2^16. The destination receives the unsigned immediate times 2^16, its low half
zero; memory is not accessed, pc advances by 4 and nothing else changes. (stated: R151) -/
def Obligations.LoadUpperImmediate : Prop :=
  ∀ (s : State) (rt : RegIdx) (imm : Imm16),
    CompletesWriting s (exec (.lui rt imm) s) rt fun v => v.toNat = imm.toNat * 2 ^ 16

/-- beq and bne branch on all 32 bits being equal or not. beq goes to pc + 4 plus the offset if x[rs] = x[rt] and to
pc + 4 otherwise, bne the other way round, modulo 2^32 and for either BRANCH_OFFSET_SHIFT; nothing but pc
changes. (stated: R164, R165) -/
def Obligations.BranchOnEquality : Prop :=
  ∀ (s : State) (rs rt : RegIdx) (imm : Imm16),
    (s.readReg rs = s.readReg rt →
      CompletesAt s (exec (.beq rs rt imm) s) (exactBranchTarget s imm) ∧
      CompletesAt s (exec (.bne rs rt imm) s) (s.pc + 4#32)) ∧
    (s.readReg rs ≠ s.readReg rt →
      CompletesAt s (exec (.beq rs rt imm) s) (s.pc + 4#32) ∧
      CompletesAt s (exec (.bne rs rt imm) s) (exactBranchTarget s imm))

/-- blez, bgtz, bltz, bgez compare x[rs] with zero as signed. Each branches by the top bit of x[rs] and whether
x[rs] is 0: <= 0, > 0, < 0, >= 0; nothing but pc changes. (stated: R166, R167, R168, R169) -/
def Obligations.BranchOnSign : Prop :=
  ∀ (s : State) (rs : RegIdx) (imm : Imm16),
    let a := s.readReg rs
    CompletesAt s (exec (.blez rs imm) s) (exactBranchPc s imm (a.msb || a == 0#32)) ∧
    CompletesAt s (exec (.bgtz rs imm) s) (exactBranchPc s imm (!a.msb && a != 0#32)) ∧
    CompletesAt s (exec (.bltz rs imm) s) (exactBranchPc s imm a.msb) ∧
    CompletesAt s (exec (.bgez rs imm) s) (exactBranchPc s imm (!a.msb))

/-- bltzal and bgezal link pc + 4 in $31 taken or not, the condition read before the link. x[31] receives pc + 4 in
every case, the branch goes by the sign of the old x[rs], $31 itself among the choices of rs; nothing else
changes. (stated: R170, R171) -/
def Obligations.BranchAndLink : Prop :=
  ∀ (s : State) (rs : RegIdx) (imm : Imm16),
    let a := s.readReg rs
    CompletesLinking s (exec (.bltzal rs imm) s) 31#5 (s.pc + 4#32) (exactBranchPc s imm a.msb) ∧
    CompletesLinking s (exec (.bgezal rs imm) s) 31#5 (s.pc + 4#32) (exactBranchPc s imm (!a.msb))

/-- slt and sltu write 1 or 0 by the signed and the unsigned comparison. The destination receives 1 if x[rs] < x[rt]
as signed integers (slt) or natural numbers (sltu) and 0 otherwise; pc advances by 4 and nothing else changes.
(stated: R180, R181) -/
def Obligations.SetOnLessThan : Prop :=
  ∀ (s : State) (rd rs rt : RegIdx),
    let a := s.readReg rs
    let b := s.readReg rt
    CompletesWriting s (exec (.slt rd rs rt) s) rd
      (fun v => v.toNat = if a.toInt < b.toInt then 1 else 0) ∧
    CompletesWriting s (exec (.sltu rd rs rt) s) rd
      (fun v => v.toNat = if a.toNat < b.toNat then 1 else 0)

/-- j and jal go to the target word in the region of pc + 4, jr to x[rs]; jal links pc + 4. After j and jal the bits
31:28 of pc are those of the old pc + 4, bits 27:2 the target field, bits 1:0 zero; jal also leaves pc + 4 in
$31; after jr pc is x[rs] whatever it is. Nothing else changes. If x[rs] is not a multiple of 4 (and not END_PC,
where the run ends) the jr completes and the next step takes AddressError(fetch, x[rs]). (stated: R67, R182,
R183, R184) -/
def Obligations.JumpsGoToTheirTargets : Prop :=
  ∀ (s : State) (target : Target26) (rs : RegIdx),
    (∃ p : Word, p.extractLsb' 28 4 = (s.pc + 4#32).extractLsb' 28 4 ∧ p.extractLsb' 2 26 = target ∧
      p.extractLsb' 0 2 = 0#2 ∧
      CompletesAt s (exec (.j target) s) p ∧
      CompletesLinking s (exec (.jal target) s) 31#5 (s.pc + 4#32) p) ∧
    CompletesAt s (exec (.jr rs) s) (s.readReg rs) ∧
    (s.status = .running → (s.readReg rs).toNat % 4 ≠ 0 → s.readReg rs ≠ s.params.endPc →
      ∃ t : State, exec (.jr rs) s = .next t ∧
        Faults t (step t) (.addressError .fetch) (some (s.readReg rs)))

/-- An instruction changes no general register but its destination. For every instruction, a general register that
is not its destination (the rd or rt of R81, or $31 of jal, bltzal, bgezal) reads the same after it as before.
(derived: R20, R22, R69, R81, R185) -/
def Obligations.OnlyTheDestinationRegisterChanges : Prop :=
  ∀ (i : Instr) (s t : State) (r : RegIdx), exec i s = .next t → destination i ≠ some r →
    t.readReg r = s.readReg r

/-- Only sw, sh, sb change memory. Every instruction but the three stores leaves every byte of memory as it was.
(derived: R14, R20, R35) -/
def Obligations.OnlyStoresChangeMemory : Prop :=
  ∀ (i : Instr) (s t : State), isStore i.mnemonic = false → exec i s = .next t → SameMemory s t

/-- Only mult, multu, div, divu change HI and LO. Every instruction but the multiplies and divides leaves HI and LO,
and the counter of draws, as they were. (derived: R20, R29) -/
def Obligations.OnlyMultiplyAndDivideWriteHiLo : Prop :=
  ∀ (i : Instr) (s t : State), writesHiLo i.mnemonic = false → exec i s = .next t →
    SameHiLo s t ∧ t.draws = s.draws

/-- An instruction that is no branch or jump and does not fault is followed by the one at pc + 4. For every
instruction but the eight branches, j, jal and jr, executed in a Running state without a fault, pc becomes pc +
4 modulo 2^32. (derived: R25, R27, R28) -/
def Obligations.SequentialUnlessControlTransfer : Prop :=
  ∀ (i : Instr) (s t : State), isControlTransfer i.mnemonic = false → s.status = .running →
    exec i s = .next t → t.status = .running → t.pc = s.pc + 4#32
end

