-- ==== Sys2Proof/Laws/Memory.lean ====
section
/-! SUPPORT. Memory as an array of bytes: every operation keeps the canonical form, and a read after a write gives
the byte written there and what was there before elsewhere. -/

namespace Sys2Proof.Machine.Memory

/-- The canonical form of a listed cell and the cells after it. -/
theorem wf_cons {k : Nat} {v : Byte} {m : Memory} :
    wf ((k, v) :: m) = true ↔
      k < 2 ^ 32 ∧ v ≠ Config.unlistedByte ∧ (∀ c ∈ m, k < c.1) ∧ wf m = true := by
  simp only [wf, Bool.and_eq_true, decide_eq_true_eq, List.all_eq_true, and_assoc]

/-- An address below every listed one reads as an unlisted byte. -/
theorem read_below {m : Memory} {a : Nat} (h : ∀ c ∈ m, a < c.1) : read m a = Config.unlistedByte := by
  cases m with
  | nil => rfl
  | cons c rest =>
    obtain ⟨k, v⟩ := c
    have hk : a < k := h (k, v) (List.mem_cons_self ..)
    simp [read, hk, Nat.ne_of_lt hk]

/-- A write lists no address but the one written and those listed before. -/
theorem mem_write {m : Memory} {a : Nat} {b : Byte} {c : Host.Cell} (h : c ∈ write m a b) :
    c.1 = a ∨ c ∈ m := by
  induction m with
  | nil =>
    simp only [write] at h
    split at h <;> simp_all
  | cons d rest ih =>
    obtain ⟨k, v⟩ := d
    simp only [write] at h
    split at h
    · split at h <;> simp_all
      rcases h with rfl | h <;> simp_all
    · split at h
      · split at h <;> simp_all
        rcases h with rfl | h <;> simp_all
      · rcases List.mem_cons.1 h with rfl | h
        · simp
        · rcases ih h with h | h <;> simp_all

/-- A write keeps the canonical form. -/
theorem write_wf {m : Memory} {a : Nat} {b : Byte} (hm : wf m = true) (ha : a < 2 ^ 32) :
    wf (write m a b) = true := by
  induction m with
  | nil =>
    simp only [write]
    split
    · rfl
    · simp_all [wf]
  | cons d rest ih =>
    obtain ⟨k, v⟩ := d
    obtain ⟨hk, hv, hall, hrest⟩ := wf_cons.1 hm
    simp only [write]
    split
    · rename_i hlt
      split
      · exact hm
      · rename_i hb
        refine wf_cons.2 ⟨ha, hb, fun c hc => ?_, hm⟩
        rcases List.mem_cons.1 hc with rfl | hc
        · exact hlt
        · exact Nat.lt_trans hlt (hall c hc)
    · split
      · rename_i hge heq
        split
        · exact hrest
        · rename_i hb
          exact wf_cons.2 ⟨ha, hb, fun c hc => heq ▸ hall c hc, hrest⟩
      · rename_i hge hne
        refine wf_cons.2 ⟨hk, hv, fun c hc => ?_, ih hrest⟩
        rcases mem_write hc with h | h
        · omega
        · exact hall c h

/-- Read after write of one byte (20_memory R50). -/
theorem read_write {m : Memory} {a c : Nat} {b : Byte} (hm : wf m = true) :
    read (write m a b) c = if c = a then b else read m c := by
  induction m with
  | nil =>
    simp only [write]
    split
    · rename_i hb
      simp [read, hb]
    · simp [read]
  | cons d rest ih =>
    obtain ⟨k, v⟩ := d
    obtain ⟨hk, hv, hall, hrest⟩ := wf_cons.1 hm
    simp only [write]
    split
    · rename_i hlt
      split
      · rename_i hb
        by_cases hc : c = a
        · subst hc
          simp [read, hlt, Nat.ne_of_lt hlt, hb]
        · simp [hc]
      · by_cases hc : c = a
        · simp [read, hc]
        · by_cases hca : c < a
          · have : c < k := Nat.lt_trans hca hlt
            simp [read, hc, hca, this, Nat.ne_of_lt this]
          · simp [read, hc, hca]
    · split
      · rename_i hge heq
        subst heq
        split
        · rename_i hb
          by_cases hc : c = a
          · subst hc
            simp [read_below hall, hb]
          · by_cases hca : c < a
            · have : read rest c = Config.unlistedByte :=
                read_below fun x hx => Nat.lt_trans hca (hall x hx)
              simp [read, hc, hca, this]
            · simp [read, hc, hca]
        · by_cases hc : c = a <;> simp [read, hc]
      · rename_i hge hne
        by_cases hck : c = k
        · have : c ≠ a := fun h => hne (h ▸ hck)
          simp [read, hck, Ne.symm hne]
        · by_cases hlt : c < k
          · have : c ≠ a := by omega
            simp [read, hck, hlt, this]
          · simp [read, hck, hlt, ih hrest]

/-- Writing bytes keeps the canonical form. -/
theorem writeBytes_wf {m : Memory} {a : Nat} {bs : List Byte} (hm : wf m = true)
    (ha : a + bs.length ≤ 2 ^ 32) : wf (writeBytes m a bs) = true := by
  induction bs generalizing m a with
  | nil => exact hm
  | cons b bs ih =>
    simp only [List.length_cons] at ha
    exact ih (write_wf hm (by omega)) (by omega)

/-- Read after a write of several bytes at rising addresses. -/
theorem read_writeBytes {m : Memory} {a c : Nat} {bs : List Byte} (hm : wf m = true)
    (ha : a + bs.length ≤ 2 ^ 32) :
    read (writeBytes m a bs) c =
      if a ≤ c ∧ c < a + bs.length then bs.getD (c - a) 0 else read m c := by
  induction bs generalizing m a with
  | nil =>
    have : ¬(a ≤ c ∧ c < a + ([] : List Byte).length) := by simp
    simp only [writeBytes, this, if_false]
  | cons b bs ih =>
    simp only [List.length_cons] at ha ⊢
    rw [writeBytes, ih (write_wf hm (by omega)) (by omega), read_write hm]
    by_cases hc : c = a
    · subst hc
      simp
    · by_cases hin : a + 1 ≤ c ∧ c < a + 1 + bs.length
      · have h1 : a ≤ c ∧ c < a + (bs.length + 1) := by omega
        obtain ⟨n, hn⟩ : ∃ n, c - a = n + 1 := ⟨c - a - 1, by omega⟩
        have hn' : c - (a + 1) = n := by omega
        simp [hin, h1, hn, hn']
      · have h1 : ¬(a ≤ c ∧ c < a + (bs.length + 1)) := by omega
        rw [if_neg hin, if_neg h1, if_neg hc]

/-- Writing an image keeps the canonical form. -/
theorem writeCells_wf {m : Memory} {cs : List Host.Cell} (hm : wf m = true)
    (hc : ∀ c ∈ cs, c.1 < 2 ^ 32) : wf (writeCells m cs) = true := by
  induction cs generalizing m with
  | nil => exact hm
  | cons c cs ih =>
    obtain ⟨a, b⟩ := c
    exact ih (write_wf hm (hc (a, b) (List.mem_cons_self ..)))
      fun c h => hc c (List.mem_cons_of_mem _ h)

end Sys2Proof.Machine.Memory
end

