-- ==== Sys2Proof/Laws/State.lean ====
section
/-! SUPPORT. What each update of the state does to each field, true by unfolding, so that no later proof unfolds a
record update; and the register file's read after write. -/

namespace Sys2Proof.Machine.State

@[simp] theorem writeReg_gpr (s : State) (i : RegIdx) (v : Word) : (s.writeReg i v).gpr = if i = 0#5 then s.gpr else s.gpr.setIfInBounds (i.toNat - 1) v := rfl
@[simp] theorem writeReg_pc (s : State) (i : RegIdx) (v : Word) : (s.writeReg i v).pc = s.pc := rfl
@[simp] theorem writeReg_hi (s : State) (i : RegIdx) (v : Word) : (s.writeReg i v).hi = s.hi := rfl
@[simp] theorem writeReg_lo (s : State) (i : RegIdx) (v : Word) : (s.writeReg i v).lo = s.lo := rfl
@[simp] theorem writeReg_fpr (s : State) (i : RegIdx) (v : Word) : (s.writeReg i v).fpr = s.fpr := rfl
@[simp] theorem writeReg_mem (s : State) (i : RegIdx) (v : Word) : (s.writeReg i v).mem = s.mem := rfl
@[simp] theorem writeReg_status (s : State) (i : RegIdx) (v : Word) : (s.writeReg i v).status = s.status := rfl
@[simp] theorem writeReg_params (s : State) (i : RegIdx) (v : Word) : (s.writeReg i v).params = s.params := rfl
@[simp] theorem writeReg_draws (s : State) (i : RegIdx) (v : Word) : (s.writeReg i v).draws = s.draws := rfl

@[simp] theorem writeHiLo_gpr (s : State) (h l : Word) : (s.writeHiLo h l).gpr = s.gpr := rfl
@[simp] theorem writeHiLo_pc (s : State) (h l : Word) : (s.writeHiLo h l).pc = s.pc := rfl
@[simp] theorem writeHiLo_hi (s : State) (h l : Word) : (s.writeHiLo h l).hi = h := rfl
@[simp] theorem writeHiLo_lo (s : State) (h l : Word) : (s.writeHiLo h l).lo = l := rfl
@[simp] theorem writeHiLo_fpr (s : State) (h l : Word) : (s.writeHiLo h l).fpr = s.fpr := rfl
@[simp] theorem writeHiLo_mem (s : State) (h l : Word) : (s.writeHiLo h l).mem = s.mem := rfl
@[simp] theorem writeHiLo_status (s : State) (h l : Word) : (s.writeHiLo h l).status = s.status := rfl
@[simp] theorem writeHiLo_params (s : State) (h l : Word) : (s.writeHiLo h l).params = s.params := rfl
@[simp] theorem writeHiLo_draws (s : State) (h l : Word) : (s.writeHiLo h l).draws = s.draws := rfl

@[simp] theorem setPc_gpr (s : State) (t : Word) : (s.setPc t).gpr = s.gpr := rfl
@[simp] theorem setPc_pc (s : State) (t : Word) : (s.setPc t).pc = t := rfl
@[simp] theorem setPc_hi (s : State) (t : Word) : (s.setPc t).hi = s.hi := rfl
@[simp] theorem setPc_lo (s : State) (t : Word) : (s.setPc t).lo = s.lo := rfl
@[simp] theorem setPc_fpr (s : State) (t : Word) : (s.setPc t).fpr = s.fpr := rfl
@[simp] theorem setPc_mem (s : State) (t : Word) : (s.setPc t).mem = s.mem := rfl
@[simp] theorem setPc_status (s : State) (t : Word) : (s.setPc t).status = s.status := rfl
@[simp] theorem setPc_params (s : State) (t : Word) : (s.setPc t).params = s.params := rfl
@[simp] theorem setPc_draws (s : State) (t : Word) : (s.setPc t).draws = s.draws := rfl

@[simp] theorem advance_gpr (s : State) : (s.advance).gpr = s.gpr := rfl
@[simp] theorem advance_pc (s : State) : (s.advance).pc = s.nextPc := rfl
@[simp] theorem advance_hi (s : State) : (s.advance).hi = s.hi := rfl
@[simp] theorem advance_lo (s : State) : (s.advance).lo = s.lo := rfl
@[simp] theorem advance_fpr (s : State) : (s.advance).fpr = s.fpr := rfl
@[simp] theorem advance_mem (s : State) : (s.advance).mem = s.mem := rfl
@[simp] theorem advance_status (s : State) : (s.advance).status = s.status := rfl
@[simp] theorem advance_params (s : State) : (s.advance).params = s.params := rfl
@[simp] theorem advance_draws (s : State) : (s.advance).draws = s.draws := rfl

@[simp] theorem drawHiLo_gpr (s : State) : (s.drawHiLo).gpr = s.gpr := rfl
@[simp] theorem drawHiLo_pc (s : State) : (s.drawHiLo).pc = s.pc := rfl
@[simp] theorem drawHiLo_hi (s : State) : (s.drawHiLo).hi = Config.unpredictable32 s.draws := rfl
@[simp] theorem drawHiLo_lo (s : State) : (s.drawHiLo).lo = Config.unpredictable32 (s.draws + 1) := rfl
@[simp] theorem drawHiLo_fpr (s : State) : (s.drawHiLo).fpr = s.fpr := rfl
@[simp] theorem drawHiLo_mem (s : State) : (s.drawHiLo).mem = s.mem := rfl
@[simp] theorem drawHiLo_status (s : State) : (s.drawHiLo).status = s.status := rfl
@[simp] theorem drawHiLo_params (s : State) : (s.drawHiLo).params = s.params := rfl
@[simp] theorem drawHiLo_draws (s : State) : (s.drawHiLo).draws = s.draws + 2 := rfl

@[simp] theorem takeFault_gpr (s : State) (r : Raise) : (s.takeFault r).gpr = s.gpr := rfl
@[simp] theorem takeFault_pc (s : State) (r : Raise) : (s.takeFault r).pc = s.pc := rfl
@[simp] theorem takeFault_hi (s : State) (r : Raise) : (s.takeFault r).hi = s.hi := rfl
@[simp] theorem takeFault_lo (s : State) (r : Raise) : (s.takeFault r).lo = s.lo := rfl
@[simp] theorem takeFault_fpr (s : State) (r : Raise) : (s.takeFault r).fpr = s.fpr := rfl
@[simp] theorem takeFault_mem (s : State) (r : Raise) : (s.takeFault r).mem = s.mem := rfl
@[simp] theorem takeFault_status (s : State) (r : Raise) : (s.takeFault r).status = .faulted r.cause s.pc r.info := rfl
@[simp] theorem takeFault_params (s : State) (r : Raise) : (s.takeFault r).params = s.params := rfl
@[simp] theorem takeFault_draws (s : State) (r : Raise) : (s.takeFault r).draws = s.draws := rfl

@[simp] theorem endRun_gpr (s : State) : (s.endRun).gpr = s.gpr := rfl
@[simp] theorem endRun_pc (s : State) : (s.endRun).pc = s.pc := rfl
@[simp] theorem endRun_hi (s : State) : (s.endRun).hi = s.hi := rfl
@[simp] theorem endRun_lo (s : State) : (s.endRun).lo = s.lo := rfl
@[simp] theorem endRun_fpr (s : State) : (s.endRun).fpr = s.fpr := rfl
@[simp] theorem endRun_mem (s : State) : (s.endRun).mem = s.mem := rfl
@[simp] theorem endRun_status (s : State) : (s.endRun).status = .ended := rfl
@[simp] theorem endRun_params (s : State) : (s.endRun).params = s.params := rfl
@[simp] theorem endRun_draws (s : State) : (s.endRun).draws = s.draws := rfl

@[simp] theorem placeWord_gpr (s : State) (a v : Word) : (s.placeWord a v).gpr = s.gpr := rfl
@[simp] theorem placeWord_pc (s : State) (a v : Word) : (s.placeWord a v).pc = s.pc := rfl
@[simp] theorem placeWord_hi (s : State) (a v : Word) : (s.placeWord a v).hi = s.hi := rfl
@[simp] theorem placeWord_lo (s : State) (a v : Word) : (s.placeWord a v).lo = s.lo := rfl
@[simp] theorem placeWord_fpr (s : State) (a v : Word) : (s.placeWord a v).fpr = s.fpr := rfl
@[simp] theorem placeWord_mem (s : State) (a v : Word) : (s.placeWord a v).mem = s.mem.writeBytes a.toNat (splitBytes s.params.endian .word v) := rfl
@[simp] theorem placeWord_status (s : State) (a v : Word) : (s.placeWord a v).status = s.status := rfl
@[simp] theorem placeWord_params (s : State) (a v : Word) : (s.placeWord a v).params = s.params := rfl
@[simp] theorem placeWord_draws (s : State) (a v : Word) : (s.placeWord a v).draws = s.draws := rfl

/-! ### Reading registers -/

@[simp] theorem readReg_zero (s : State) : s.readReg 0#5 = 0#32 := rfl

/-- A register read depends on the register file only. -/
theorem readReg_congr {s t : State} (h : t.gpr = s.gpr) (r : RegIdx) : t.readReg r = s.readReg r := by
  simp only [readReg, h]

@[simp] theorem readReg_writeHiLo (s : State) (h l : Word) (r : RegIdx) :
    (s.writeHiLo h l).readReg r = s.readReg r := rfl
@[simp] theorem readReg_setPc (s : State) (t : Word) (r : RegIdx) :
    (s.setPc t).readReg r = s.readReg r := rfl
@[simp] theorem readReg_advance (s : State) (r : RegIdx) :
    (s.advance).readReg r = s.readReg r := rfl
@[simp] theorem readReg_drawHiLo (s : State) (r : RegIdx) :
    (s.drawHiLo).readReg r = s.readReg r := rfl
@[simp] theorem readReg_takeFault (s : State) (x : Raise) (r : RegIdx) :
    (s.takeFault x).readReg r = s.readReg r := rfl
@[simp] theorem readReg_endRun (s : State) (r : RegIdx) :
    (s.endRun).readReg r = s.readReg r := rfl
@[simp] theorem readReg_placeWord (s : State) (a v : Word) (r : RegIdx) :
    (s.placeWord a v).readReg r = s.readReg r := rfl

/-- Read after write: register `d` holds `v`, unless it is register 0, and every other register is as before. -/
theorem readReg_writeReg (s : State) (d r : RegIdx) (v : Word) :
    (s.writeReg d v).readReg r = if r = d ∧ r ≠ 0#5 then v else s.readReg r := by
  by_cases hd : d = 0#5
  · subst hd
    simp [readReg]
  · have hdn : d.toNat ≠ 0 := fun h => hd (BitVec.eq_of_toNat_eq (by simpa using h))
    have hlt := d.isLt
    by_cases hr : r = 0#5
    · simp [readReg, hr]
    · have hrn : r.toNat ≠ 0 := fun h => hr (BitVec.eq_of_toNat_eq (by simpa using h))
      have hrl := r.isLt
      by_cases e : r = d
      · subst e
        simp only [readReg, writeReg, hr, if_false, ne_eq, not_false_eq_true, and_true, if_true]
        rw [Vector.getElem?_setIfInBounds_self_of_lt (by omega)]
        rfl
      · have hne : d.toNat - 1 ≠ r.toNat - 1 := fun h =>
          e (BitVec.eq_of_toNat_eq (by omega))
        simp only [readReg, writeReg, hr, hd, if_false, e, false_and]
        rw [Vector.getElem?_setIfInBounds_ne hne]

/-! ### The next address, and the operands that read the state -/

@[simp] theorem nextPc_eq (s : State) : s.nextPc = s.pc + 4#32 := rfl

/-- State.reset is the launch of Launch.reset. -/
theorem launch_reset : State.launch Launch.reset = State.reset := rfl

end Sys2Proof.Machine.State
end

