-- ==== Sys2Proof/Laws/Access.lean ====
section
/-! SUPPORT. Byte order, and what the checked accesses can do. -/

namespace Sys2Proof.Machine

/-! ### Byte order -/

/-- The bytes of a value, put together again, are the value (20_memory R41, R42). -/
theorem joinBytes_byteOf (e : Endian) (w : Width) (v : BitVec w.bits) :
    joinBytes e w (byteOf e w v) = v := by
  have split16 (v : BitVec 16) : v.extractLsb' 8 8 ++ v.extractLsb' 0 8 = v := by
    apply BitVec.eq_of_getLsbD_eq
    intro i hi
    simp only [BitVec.getLsbD_append, BitVec.getLsbD_extractLsb']
    by_cases h : i < 8 <;> grind
  have split32 (v : BitVec 32) :
      v.extractLsb' 24 8 ++ v.extractLsb' 16 8 ++ v.extractLsb' 8 8 ++ v.extractLsb' 0 8 = v := by
    apply BitVec.eq_of_getLsbD_eq
    intro i hi
    simp only [BitVec.getLsbD_append, BitVec.getLsbD_extractLsb']
    by_cases h : i < 8 <;> by_cases h' : i < 16 <;> by_cases h'' : i < 24 <;> grind
  cases w <;> cases e
  · exact BitVec.extractLsb'_eq_self
  · exact BitVec.extractLsb'_eq_self
  · exact split16 v
  · exact split16 v
  · exact split32 v
  · exact split32 v

/-- The bytes of a concatenation of two and of four bytes. -/
theorem extract_append_two (x0 x1 : Byte) :
    (x0 ++ x1).extractLsb' 8 8 = x0 ∧ (x0 ++ x1).extractLsb' 0 8 = x1 :=
  ⟨BitVec.extractLsb'_append_eq_left, BitVec.extractLsb'_append_eq_right⟩

theorem extract_append_four (x0 x1 x2 x3 : Byte) :
    (x0 ++ x1 ++ x2 ++ x3).extractLsb' 24 8 = x0 ∧ (x0 ++ x1 ++ x2 ++ x3).extractLsb' 16 8 = x1 ∧
    (x0 ++ x1 ++ x2 ++ x3).extractLsb' 8 8 = x2 ∧ (x0 ++ x1 ++ x2 ++ x3).extractLsb' 0 8 = x3 := by
  refine ⟨?_, ?_, ?_, BitVec.extractLsb'_append_eq_right⟩
  · rw [BitVec.extractLsb'_append_eq_of_le (by decide), BitVec.extractLsb'_append_eq_of_le (by decide)]
    exact BitVec.extractLsb'_append_eq_left
  · rw [BitVec.extractLsb'_append_eq_of_le (by decide), BitVec.extractLsb'_append_eq_of_le (by decide)]
    exact BitVec.extractLsb'_append_eq_right
  · rw [BitVec.extractLsb'_append_eq_of_le (by decide)]
    exact BitVec.extractLsb'_append_eq_right

/-- Every byte of a value put together from bytes is the byte it was (20_memory R41, R42). -/
theorem byteOf_joinBytes (e : Endian) (w : Width) (b : Nat → Byte) (i : Nat) (hi : i < w.bytes) :
    byteOf e w (joinBytes e w b) i = b i := by
  have two := fun x y => extract_append_two (b x) (b y)
  have four := fun x y z u => extract_append_four (b x) (b y) (b z) (b u)
  cases w <;> cases e <;> simp only [Width.bytes] at hi <;> interval_cases i
  · exact BitVec.extractLsb'_eq_self
  · exact BitVec.extractLsb'_eq_self
  · exact (two 0 1).1
  · exact (two 0 1).2
  · exact (two 1 0).2
  · exact (two 1 0).1
  · exact (four 0 1 2 3).1
  · exact (four 0 1 2 3).2.1
  · exact (four 0 1 2 3).2.2.1
  · exact (four 0 1 2 3).2.2.2
  · exact (four 3 2 1 0).2.2.2
  · exact (four 3 2 1 0).2.2.1
  · exact (four 3 2 1 0).2.1
  · exact (four 3 2 1 0).1

/-- Only the bytes of the access make up the value. -/
theorem joinBytes_congr {e : Endian} {w : Width} {b c : Nat → Byte} (h : ∀ i, i < w.bytes → b i = c i) :
    joinBytes e w b = joinBytes e w c := by
  cases w <;> cases e <;> simp only [joinBytes, Width.bytes] at * <;> simp (disch := decide) only [h]

/-- The list of the bytes of a value. -/
theorem splitBytes_length (e : Endian) (w : Width) (v : BitVec w.bits) :
    (splitBytes e w v).length = w.bytes := by
  simp [splitBytes]

theorem splitBytes_getD (e : Endian) (w : Width) (v : BitVec w.bits) (i : Nat) (hi : i < w.bytes) :
    (splitBytes e w v).getD i 0 = byteOf e w v i := by
  simp [splitBytes, List.getD_eq_getElem?_getD, hi]

/-! ### The checks -/

/-- `MEM_VALID` of an access is `MEM_VALID` of each of its bytes. -/
theorem allValid_iff {p : Params} {a n : Nat} :
    Params.allValid p a n = true ↔ ∀ j, j < n → Params.memValid p (a + j) = true := by
  simp [Params.allValid]

theorem allValid_false_iff {p : Params} {a n : Nat} :
    Params.allValid p a n = false ↔ ∃ j, j < n ∧ Params.memValid p (a + j) = false := by
  simp [Params.allValid]

/-- An access that passes its checks is aligned and accepted, and these are all the checks (20_memory R41). -/
theorem accessCheck_none {s : State} {k : AccessKind} {w : Width} {a : Word} :
    s.accessCheck k w a = none ↔
      a.toNat % w.bytes = 0 ∧ Params.allValid s.params a.toNat w.bytes = true := by
  unfold State.accessCheck
  by_cases h : a.toNat % w.bytes = 0
  · by_cases hv : Params.allValid s.params a.toNat w.bytes = true
    · rw [if_neg (not_not.2 h), if_pos hv]
      exact ⟨fun _ => ⟨h, hv⟩, fun _ => rfl⟩
    · rw [if_neg (not_not.2 h), if_neg hv]
      exact ⟨nofun, fun x => absurd x.2 hv⟩
  · rw [if_pos h]
    exact ⟨nofun, fun x => absurd x.1 h⟩

/-- An aligned access does not wrap (20_memory R40). -/
theorem aligned_in_space {w : Width} {a : Word} (h : a.toNat % w.bytes = 0) :
    a.toNat + w.bytes ≤ 2 ^ 32 := by
  have := a.isLt
  cases w <;> simp only [Width.bytes] at * <;> omega

/-- What is raised: the alignment first, then `MEM_VALID`; both record the address. -/
theorem accessCheck_some {s : State} {k : AccessKind} {w : Width} {a : Word} {r : Raise} :
    s.accessCheck k w a = some r ↔
      (a.toNat % w.bytes ≠ 0 ∧ r = ⟨.addressError k, some a⟩) ∨
      (a.toNat % w.bytes = 0 ∧ Params.allValid s.params a.toNat w.bytes = false ∧
        r = ⟨.busError k, some a⟩) := by
  unfold State.accessCheck
  by_cases h : a.toNat % w.bytes = 0
  · cases hv : Params.allValid s.params a.toNat w.bytes
    · rw [if_neg (not_not.2 h), if_neg nofun]
      exact ⟨fun e => .inr ⟨h, rfl, (Option.some.inj e).symm⟩,
        fun x => x.elim (fun y => absurd h y.1) fun y => congrArg some y.2.2.symm⟩
    · rw [if_neg (not_not.2 h), if_pos rfl]
      exact ⟨nofun, fun x => x.elim (fun y => absurd h y.1) fun y => nomatch y.2.1⟩
  · rw [if_pos h]
    exact ⟨fun e => .inl ⟨h, (Option.some.inj e).symm⟩,
      fun x => x.elim (fun y => congrArg some y.2.symm) fun y => absurd y.1 h⟩

/-- What a read can do: it raises what its checks raise, or gives the bytes at the address. -/
theorem memRead_cases (s : State) (k : AccessKind) (w : Width) (a : Word) :
    (∃ r, s.accessCheck k w a = some r ∧ s.memRead k w a = .error r) ∨
    (s.accessCheck k w a = none ∧
      s.memRead k w a = .ok (joinBytes s.params.endian w fun i => s.mem.read (a.toNat + i))) := by
  unfold State.memRead
  cases h : s.accessCheck k w a with
  | some r => exact .inl ⟨r, rfl, rfl⟩
  | none => exact .inr ⟨rfl, rfl⟩

/-- A read of an aligned, accepted access at which the bytes of `v` stand gives `v`. -/
theorem memRead_of_bytes {s : State} {k : AccessKind} {w : Width} {a : Word} {v : BitVec w.bits}
    (hc : s.accessCheck k w a = none)
    (hb : ∀ i, i < w.bytes → s.mem.read (a.toNat + i) = byteOf s.params.endian w v i) :
    s.memRead k w a = .ok v := by
  unfold State.memRead
  rw [hc]
  exact congrArg Except.ok ((joinBytes_congr hb).trans (joinBytes_byteOf _ _ _))

/-- What a write can do: it raises what its checks raise, or only the memory changes. -/
theorem memWrite_cases (s : State) (w : Width) (a : Word) (v : BitVec w.bits) :
    (∃ r, s.accessCheck .store w a = some r ∧ s.memWrite w a v = .error r) ∨
    (s.accessCheck .store w a = none ∧
      s.memWrite w a v =
        .ok { s with mem := s.mem.writeBytes a.toNat (splitBytes s.params.endian w v) }) := by
  unfold State.memWrite
  cases h : s.accessCheck .store w a with
  | some r => exact .inl ⟨r, rfl, rfl⟩
  | none => exact .inr ⟨rfl, rfl⟩

/-- The bytes after a value is written at an aligned address (20_memory R42). -/
theorem read_writeValue {m : Memory} {e : Endian} {w : Width} {a : Word} {v : BitVec w.bits} {c : Nat}
    (hm : m.wf = true) (ha : a.toNat % w.bytes = 0) :
    (m.writeBytes a.toNat (splitBytes e w v)).read c =
      if a.toNat ≤ c ∧ c < a.toNat + w.bytes then byteOf e w v (c - a.toNat) else m.read c := by
  have hin := aligned_in_space (w := w) ha
  rw [Memory.read_writeBytes hm (by rw [splitBytes_length]; exact hin), splitBytes_length]
  split
  · rename_i h
    exact splitBytes_getD e w v _ (by omega)
  · rfl

/-- Writing a value at an aligned address keeps the canonical form. -/
theorem writeValue_wf {m : Memory} {e : Endian} {w : Width} {a : Word} {v : BitVec w.bits}
    (hm : m.wf = true) (ha : a.toNat % w.bytes = 0) :
    (m.writeBytes a.toNat (splitBytes e w v)).wf = true :=
  Memory.writeBytes_wf hm (by rw [splitBytes_length]; exact aligned_in_space ha)

/-- A checked write keeps the canonical form. -/
theorem memWrite_wf {s t : State} {w : Width} {a : Word} {v : BitVec w.bits}
    (hs : s.mem.wf = true) (h : s.memWrite w a v = .ok t) : t.mem.wf = true := by
  rcases memWrite_cases s w a v with ⟨r, -, e⟩ | ⟨hc, e⟩
  · rw [e] at h
    cases h
  · rw [e] at h
    cases h
    exact writeValue_wf hs (accessCheck_none.1 hc).1

end Sys2Proof.Machine
end

