-- ==== Sys2Proof/Laws/Decode.lean ====
section
/-! SUPPORT. The fields of encoded words, words as their fields, and the rows of the opcode table field by field. -/

namespace Sys2Proof

/-! ### The fields of the three formats -/

@[simp] theorem fieldOp_encodeR (rs rt rd : RegIdx) (shamt : Shamt) (funct : BitVec 6) :
    fieldOp (encodeR rs rt rd shamt funct) = 0b000000#6 := by
  unfold fieldOp encodeR
  rw [BitVec.extractLsb'_append_eq_of_le (by decide)]
  rw [BitVec.extractLsb'_append_eq_of_le (by decide)]
  rw [BitVec.extractLsb'_append_eq_of_le (by decide)]
  rw [BitVec.extractLsb'_append_eq_of_le (by decide)]
  rw [BitVec.extractLsb'_append_eq_of_le (by decide)]
  exact BitVec.extractLsb'_eq_self

@[simp] theorem fieldRs_encodeR (rs rt rd : RegIdx) (shamt : Shamt) (funct : BitVec 6) :
    fieldRs (encodeR rs rt rd shamt funct) = rs := by
  unfold fieldRs encodeR
  rw [BitVec.extractLsb'_append_eq_of_le (by decide)]
  rw [BitVec.extractLsb'_append_eq_of_le (by decide)]
  rw [BitVec.extractLsb'_append_eq_of_le (by decide)]
  rw [BitVec.extractLsb'_append_eq_of_le (by decide)]
  exact BitVec.extractLsb'_append_eq_right

@[simp] theorem fieldRt_encodeR (rs rt rd : RegIdx) (shamt : Shamt) (funct : BitVec 6) :
    fieldRt (encodeR rs rt rd shamt funct) = rt := by
  unfold fieldRt encodeR
  rw [BitVec.extractLsb'_append_eq_of_le (by decide)]
  rw [BitVec.extractLsb'_append_eq_of_le (by decide)]
  rw [BitVec.extractLsb'_append_eq_of_le (by decide)]
  exact BitVec.extractLsb'_append_eq_right

@[simp] theorem fieldRd_encodeR (rs rt rd : RegIdx) (shamt : Shamt) (funct : BitVec 6) :
    fieldRd (encodeR rs rt rd shamt funct) = rd := by
  unfold fieldRd encodeR
  rw [BitVec.extractLsb'_append_eq_of_le (by decide)]
  rw [BitVec.extractLsb'_append_eq_of_le (by decide)]
  exact BitVec.extractLsb'_append_eq_right

@[simp] theorem fieldShamt_encodeR (rs rt rd : RegIdx) (shamt : Shamt) (funct : BitVec 6) :
    fieldShamt (encodeR rs rt rd shamt funct) = shamt := by
  unfold fieldShamt encodeR
  rw [BitVec.extractLsb'_append_eq_of_le (by decide)]
  exact BitVec.extractLsb'_append_eq_right

@[simp] theorem fieldFunct_encodeR (rs rt rd : RegIdx) (shamt : Shamt) (funct : BitVec 6) :
    fieldFunct (encodeR rs rt rd shamt funct) = funct := by
  unfold fieldFunct encodeR
  exact BitVec.extractLsb'_append_eq_right

@[simp] theorem fieldOp_encodeI (op : BitVec 6) (rs rt : RegIdx) (imm : Imm16) :
    fieldOp (encodeI op rs rt imm) = op := by
  unfold fieldOp encodeI
  rw [BitVec.extractLsb'_append_eq_of_le (by decide)]
  rw [BitVec.extractLsb'_append_eq_of_le (by decide)]
  rw [BitVec.extractLsb'_append_eq_of_le (by decide)]
  exact BitVec.extractLsb'_eq_self

@[simp] theorem fieldRs_encodeI (op : BitVec 6) (rs rt : RegIdx) (imm : Imm16) :
    fieldRs (encodeI op rs rt imm) = rs := by
  unfold fieldRs encodeI
  rw [BitVec.extractLsb'_append_eq_of_le (by decide)]
  rw [BitVec.extractLsb'_append_eq_of_le (by decide)]
  exact BitVec.extractLsb'_append_eq_right

@[simp] theorem fieldRt_encodeI (op : BitVec 6) (rs rt : RegIdx) (imm : Imm16) :
    fieldRt (encodeI op rs rt imm) = rt := by
  unfold fieldRt encodeI
  rw [BitVec.extractLsb'_append_eq_of_le (by decide)]
  exact BitVec.extractLsb'_append_eq_right

@[simp] theorem fieldImm_encodeI (op : BitVec 6) (rs rt : RegIdx) (imm : Imm16) :
    fieldImm (encodeI op rs rt imm) = imm := by
  unfold fieldImm encodeI
  exact BitVec.extractLsb'_append_eq_right

@[simp] theorem fieldOp_encodeJ (op : BitVec 6) (target : Target26) :
    fieldOp (encodeJ op target) = op := by
  exact BitVec.extractLsb'_append_eq_left

@[simp] theorem fieldTarget_encodeJ (op : BitVec 6) (target : Target26) :
    fieldTarget (encodeJ op target) = target := by
  exact BitVec.extractLsb'_append_eq_right

/-! ### The fields of a literal word -/

@[simp] theorem fieldOp_ofNat (n : Nat) :
    fieldOp (BitVec.ofNat 32 n) = BitVec.ofNat 6 (n / 67108864) := by
  apply BitVec.eq_of_toNat_eq
  simp only [fieldOp, BitVec.extractLsb'_toNat, BitVec.toNat_ofNat, Nat.shiftRight_eq_div_pow]
  omega

@[simp] theorem fieldRs_ofNat (n : Nat) :
    fieldRs (BitVec.ofNat 32 n) = BitVec.ofNat 5 (n / 2097152) := by
  apply BitVec.eq_of_toNat_eq
  simp only [fieldRs, BitVec.extractLsb'_toNat, BitVec.toNat_ofNat, Nat.shiftRight_eq_div_pow]
  omega

@[simp] theorem fieldRt_ofNat (n : Nat) :
    fieldRt (BitVec.ofNat 32 n) = BitVec.ofNat 5 (n / 65536) := by
  apply BitVec.eq_of_toNat_eq
  simp only [fieldRt, BitVec.extractLsb'_toNat, BitVec.toNat_ofNat, Nat.shiftRight_eq_div_pow]
  omega

@[simp] theorem fieldRd_ofNat (n : Nat) :
    fieldRd (BitVec.ofNat 32 n) = BitVec.ofNat 5 (n / 2048) := by
  apply BitVec.eq_of_toNat_eq
  simp only [fieldRd, BitVec.extractLsb'_toNat, BitVec.toNat_ofNat, Nat.shiftRight_eq_div_pow]
  omega

@[simp] theorem fieldShamt_ofNat (n : Nat) :
    fieldShamt (BitVec.ofNat 32 n) = BitVec.ofNat 5 (n / 64) := by
  apply BitVec.eq_of_toNat_eq
  simp only [fieldShamt, BitVec.extractLsb'_toNat, BitVec.toNat_ofNat, Nat.shiftRight_eq_div_pow]
  omega

@[simp] theorem fieldFunct_ofNat (n : Nat) :
    fieldFunct (BitVec.ofNat 32 n) = BitVec.ofNat 6 (n) := by
  apply BitVec.eq_of_toNat_eq
  simp only [fieldFunct, BitVec.extractLsb'_toNat, BitVec.toNat_ofNat, Nat.shiftRight_eq_div_pow]
  omega

/-! ### A word is its fields -/

/-- Two words with the same R-type fields are the same word. -/
theorem word_ext {v w : Word} (hop : fieldOp v = fieldOp w) (hrs : fieldRs v = fieldRs w)
    (hrt : fieldRt v = fieldRt w) (hrd : fieldRd v = fieldRd w) (hsh : fieldShamt v = fieldShamt w)
    (hfn : fieldFunct v = fieldFunct w) : v = w := by
  have get {lo len k : Nat} {x y : Word} (h : x.extractLsb' lo len = y.extractLsb' lo len)
      (hlo : lo ≤ k) (hk : k < lo + len) : x.getLsbD k = y.getLsbD k := by
    have := congrArg (fun z => z.getLsbD (k - lo)) h
    simpa [BitVec.getLsbD_extractLsb', show k - lo < len by omega, show lo + (k - lo) = k by omega]
      using this
  apply BitVec.eq_of_getLsbD_eq
  intro k hk
  by_cases h6 : k < 6
  · exact get hfn (by omega) (by omega)
  by_cases h11 : k < 11
  · exact get hsh (by omega) (by omega)
  by_cases h16 : k < 16
  · exact get hrd (by omega) (by omega)
  by_cases h21 : k < 21
  · exact get hrt (by omega) (by omega)
  by_cases h26 : k < 26
  · exact get hrs (by omega) (by omega)
  · exact get hop (by omega) (by omega)

/-- The immediate field is the three fields below `rt`. -/
theorem fieldImm_parts (w : Word) :
    fieldRd w = (fieldImm w).extractLsb' 11 5 ∧ fieldShamt w = (fieldImm w).extractLsb' 6 5 ∧
    fieldFunct w = (fieldImm w).extractLsb' 0 6 := by
  refine ⟨?_, ?_, ?_⟩ <;> apply BitVec.eq_of_getLsbD_eq <;> intro k hk <;>
    simp only [fieldRd, fieldShamt, fieldFunct, fieldImm, BitVec.getLsbD_extractLsb'] <;> grind

/-- The target field is the five fields below `op`. -/
theorem fieldTarget_parts (w : Word) :
    fieldRs w = (fieldTarget w).extractLsb' 21 5 ∧ fieldRt w = (fieldTarget w).extractLsb' 16 5 ∧
    fieldImm w = (fieldTarget w).extractLsb' 0 16 := by
  refine ⟨?_, ?_, ?_⟩ <;> apply BitVec.eq_of_getLsbD_eq <;> intro k hk <;>
    simp only [fieldRs, fieldRt, fieldImm, fieldTarget, BitVec.getLsbD_extractLsb'] <;> grind

/-- Two words with the same I-type fields are the same word. -/
theorem word_ext_imm {v w : Word} (hop : fieldOp v = fieldOp w) (hrs : fieldRs v = fieldRs w)
    (hrt : fieldRt v = fieldRt w) (himm : fieldImm v = fieldImm w) : v = w := by
  obtain ⟨v1, v2, v3⟩ := fieldImm_parts v
  obtain ⟨w1, w2, w3⟩ := fieldImm_parts w
  exact word_ext hop hrs hrt (by rw [v1, w1, himm]) (by rw [v2, w2, himm]) (by rw [v3, w3, himm])

/-- Two words with the same J-type fields are the same word. -/
theorem word_ext_target {v w : Word} (hop : fieldOp v = fieldOp w)
    (ht : fieldTarget v = fieldTarget w) : v = w := by
  obtain ⟨v1, v2, v3⟩ := fieldTarget_parts v
  obtain ⟨w1, w2, w3⟩ := fieldTarget_parts w
  exact word_ext_imm hop (by rw [v1, w1, ht]) (by rw [v2, w2, ht]) (by rw [v3, w3, ht])

/-- A word is encoded from its own fields, in each format. -/
theorem encodeR_fields {w : Word} (h : fieldOp w = 0b000000#6) :
    encodeR (fieldRs w) (fieldRt w) (fieldRd w) (fieldShamt w) (fieldFunct w) = w :=
  word_ext (by simp [h]) (by simp) (by simp) (by simp) (by simp) (by simp)

theorem encodeI_fields (w : Word) :
    encodeI (fieldOp w) (fieldRs w) (fieldRt w) (fieldImm w) = w :=
  word_ext_imm (by simp) (by simp) (by simp) (by simp)

theorem encodeJ_fields (w : Word) : encodeJ (fieldOp w) (fieldTarget w) = w :=
  word_ext_target (by simp) (by simp)

/-! ### The rows of the table -/

/-- A masked comparison of words is one of their fields. -/
theorem and_eq_iff_fields (v m b : Word) :
    v &&& m = b ↔
      fieldOp v &&& fieldOp m = fieldOp b ∧ fieldRs v &&& fieldRs m = fieldRs b ∧
      fieldRt v &&& fieldRt m = fieldRt b ∧ fieldRd v &&& fieldRd m = fieldRd b ∧
      fieldShamt v &&& fieldShamt m = fieldShamt b ∧ fieldFunct v &&& fieldFunct m = fieldFunct b := by
  have d (lo len : Nat) : v.extractLsb' lo len &&& m.extractLsb' lo len = (v &&& m).extractLsb' lo len := by
    rw [BitVec.extractLsb'_and]
  constructor
  · rintro rfl
    exact ⟨d _ _, d _ _, d _ _, d _ _, d _ _, d _ _⟩
  · rintro ⟨h1, h2, h3, h4, h5, h6⟩
    exact word_ext ((d _ _).symm.trans h1) ((d _ _).symm.trans h2) ((d _ _).symm.trans h3)
      ((d _ _).symm.trans h4) ((d _ _).symm.trans h5) ((d _ _).symm.trans h6)

/-- A row admits a word field by field. -/
theorem admits_iff_fields (m : Mnemonic) (w : Word) :
    m.admits w = true ↔
      fieldOp w &&& fieldOp m.row.mask = fieldOp m.row.bits ∧
      fieldRs w &&& fieldRs m.row.mask = fieldRs m.row.bits ∧
      fieldRt w &&& fieldRt m.row.mask = fieldRt m.row.bits ∧
      fieldRd w &&& fieldRd m.row.mask = fieldRd m.row.bits ∧
      fieldShamt w &&& fieldShamt m.row.mask = fieldShamt m.row.bits ∧
      fieldFunct w &&& fieldFunct m.row.mask = fieldFunct m.row.bits := by
  rw [Mnemonic.admits, beq_iff_eq, and_eq_iff_fields]

/-- A field that the mask takes whole. -/
@[simp] theorem and_full6 (x : BitVec 6) : x &&& 63#6 = x :=
  BitVec.and_allOnes

@[simp] theorem and_full5 (x : BitVec 5) : x &&& 31#5 = x :=
  BitVec.and_allOnes

/-- Every mnemonic has its row in the list. -/
theorem Mnemonic.mem_all (m : Mnemonic) : m ∈ Mnemonic.all := by
  cases m <;> decide

end Sys2Proof
end

