-- ==== Sys2Proof/Laws/Exec.lean ====
section
/-! SUPPORT. For each operation the meanings share, one lemma that says all it can do; the provers cite these instead
of unfolding the operations. -/

namespace Sys2Proof.Machine

/-! ### Frames of the updates -/

/-- A register write and the advance change that register and `pc` only. -/
theorem onlyWritesReg_advance (s : State) (d : RegIdx) (v : Word) :
    OnlyWritesReg d v s (s.writeReg d v).advance :=
  ⟨fun r => s.readReg_writeReg d r v, fun _ => rfl, ⟨rfl, rfl⟩, ⟨rfl, rfl, rfl⟩, rfl⟩

/-- A register write and a jump change that register and `pc` only. -/
theorem onlyWritesReg_setPc (s : State) (d : RegIdx) (v p : Word) :
    OnlyWritesReg d v s ((s.writeReg d v).setPc p) :=
  ⟨fun r => s.readReg_writeReg d r v, fun _ => rfl, ⟨rfl, rfl⟩, ⟨rfl, rfl, rfl⟩, rfl⟩

/-- A jump changes `pc` only. -/
theorem onlyWritesPc_setPc (s : State) (p : Word) : OnlyWritesPc s (s.setPc p) :=
  ⟨fun _ => rfl, fun _ => rfl, ⟨rfl, rfl⟩, ⟨rfl, rfl, rfl⟩, rfl⟩

/-! ### Arithmetic, logical, shifts, moves, compares -/

/-- What `writeAndAdvance` does. -/
theorem writeAndAdvance_completes (s : State) (d : RegIdx) (v : Word) (P : Word → Prop) (h : P v) :
    CompletesWriting s (s.writeAndAdvance d v) d P :=
  ⟨_, v, rfl, h, onlyWritesReg_advance s d v, rfl⟩

/-- What `writeUnlessOverflow` does: the fault, or the write. -/
theorem writeUnlessOverflow_true (s : State) (d : RegIdx) (v : Word) :
    Faults s (s.writeUnlessOverflow d true v) .integerOverflow none := rfl

theorem writeUnlessOverflow_false (s : State) (d : RegIdx) (v : Word) :
    s.writeUnlessOverflow d false v = s.writeAndAdvance d v := rfl

/-- What `writeProduct` does. -/
theorem writeProduct_completes (s : State) (p : BitVec 64) (P : Word → Word → Prop)
    (h : P (p.extractLsb' 32 32) (p.extractLsb' 0 32)) :
    CompletesHiLo s (s.writeProduct p) s.draws P :=
  ⟨_, rfl, h, fun _ => rfl, fun _ => rfl, ⟨rfl, rfl, rfl⟩, rfl, rfl⟩

/-- What a write of `HI` and `LO` does. -/
theorem writeHiLo_completes (s : State) (h l : Word) (P : Word → Word → Prop) (hp : P h l) :
    CompletesHiLo s (.next (s.writeHiLo h l).advance) s.draws P :=
  ⟨_, rfl, hp, fun _ => rfl, fun _ => rfl, ⟨rfl, rfl, rfl⟩, rfl, rfl⟩

/-- What the two draws of an undefined division do. -/
theorem drawHiLo_completes (s : State) :
    CompletesHiLo s (.next s.drawHiLo.advance) (s.draws + 2)
      (fun h l => h = Config.unpredictable32 s.draws ∧ l = Config.unpredictable32 (s.draws + 1)) :=
  ⟨_, rfl, ⟨rfl, rfl⟩, fun _ => rfl, fun _ => rfl, ⟨rfl, rfl, rfl⟩, rfl, rfl⟩

/-! ### Branches -/

/-- What `branch` does. -/
theorem branch_completes (s : State) (taken : Bool) (imm : Imm16) :
    CompletesAt s (s.branch taken imm) (s.branchPc taken imm) :=
  ⟨_, rfl, rfl, onlyWritesPc_setPc s _⟩

/-- What `branchAndLink` does. -/
theorem branchAndLink_completes (s : State) (taken : Bool) (imm : Imm16) :
    CompletesLinking s (s.branchAndLink taken imm) linkReg s.nextPc (s.branchPc taken imm) :=
  ⟨_, rfl, rfl, onlyWritesReg_setPc s _ _ _⟩

/-! ### Loads and stores -/

/-- What `load` does when the read gives a value. -/
theorem load_completes {s : State} {w : Width} {ext : BitVec w.bits → Word} {rt rs : RegIdx} {imm : Imm16}
    {v : BitVec w.bits} (h : s.memRead .load w (s.effectiveAddress rs imm) = .ok v) (P : Word → Prop)
    (hp : P (ext v)) : CompletesWriting s (s.load w ext rt imm rs) rt P := by
  unfold State.load
  rw [h]
  exact writeAndAdvance_completes s rt _ P hp

/-- What `load` and `store` do when the access raises. -/
theorem load_faults {s : State} {w : Width} {ext : BitVec w.bits → Word} {rt rs : RegIdx} {imm : Imm16}
    {r : Raise} (h : s.accessCheck .load w (s.effectiveAddress rs imm) = some r) :
    Faults s (s.load w ext rt imm rs) r.cause r.info := by
  unfold State.load State.memRead
  rw [h]
  rfl

theorem store_faults {s : State} {w : Width} {v : BitVec w.bits} {rs : RegIdx} {imm : Imm16} {r : Raise}
    (h : s.accessCheck .store w (s.effectiveAddress rs imm) = some r) :
    Faults s (s.store w v imm rs) r.cause r.info := by
  unfold State.store State.memWrite
  rw [h]
  rfl

/-- What `store` does when the access is aligned and accepted. -/
theorem store_next {s : State} {w : Width} {v : BitVec w.bits} {rs : RegIdx} {imm : Imm16}
    (h : s.accessCheck .store w (s.effectiveAddress rs imm) = none) :
    s.store w v imm rs =
      .next { s with
        mem := s.mem.writeBytes (s.effectiveAddress rs imm).toNat (splitBytes s.params.endian w v)
        pc := s.nextPc } := by
  unfold State.store State.memWrite
  rw [h]
  rfl

/-- `load` and `store` always answer a next state. -/
theorem load_cases (s : State) (w : Width) (ext : BitVec w.bits → Word) (rt rs : RegIdx) (imm : Imm16) :
    (∃ r, s.accessCheck .load w (s.effectiveAddress rs imm) = some r ∧
      s.load w ext rt imm rs = .next (s.takeFault r)) ∨
    (∃ v, s.memRead .load w (s.effectiveAddress rs imm) = .ok v ∧
      s.load w ext rt imm rs = .next (s.writeReg rt (ext v)).advance) := by
  unfold State.load
  rcases memRead_cases s .load w (s.effectiveAddress rs imm) with ⟨r, h, e⟩ | ⟨h, e⟩
  · exact .inl ⟨r, h, by rw [e]; rfl⟩
  · exact .inr ⟨_, e, by rw [e]; rfl⟩

theorem store_cases (s : State) (w : Width) (v : BitVec w.bits) (rs : RegIdx) (imm : Imm16) :
    (∃ r, s.accessCheck .store w (s.effectiveAddress rs imm) = some r ∧
      s.store w v imm rs = .next (s.takeFault r)) ∨
    (∃ t, s.memWrite w (s.effectiveAddress rs imm) v = .ok t ∧ s.store w v imm rs = .next t.advance) := by
  unfold State.store
  rcases memWrite_cases s w (s.effectiveAddress rs imm) v with ⟨r, h, e⟩ | ⟨h, e⟩
  · exact .inl ⟨r, h, by rw [e]; rfl⟩
  · exact .inr ⟨_, e, by rw [e]⟩

/-! ### All instructions -/

/-- Everything an instruction can do: write its destination; write `HI` and `LO`; store; go to an address; link and go to an
address; take `IntegerOverflow`; take the fault of its access. -/
theorem exec_cases (i : Instr) (s : State) :
    (∃ d v, destination i = some d ∧ exec i s = .next (s.writeReg d v).advance) ∨
    (∃ h l n, writesHiLo i.mnemonic = true ∧
      exec i s = .next ({ s with hi := h, lo := l, draws := n } : State).advance) ∨
    (∃ w rs imm v t, memoryAccess i = some (.store, w, rs, imm) ∧ isStore i.mnemonic = true ∧
      s.memWrite w (s.effectiveAddress rs imm) v = .ok t ∧ exec i s = .next t.advance) ∨
    (∃ p, isControlTransfer i.mnemonic = true ∧ exec i s = .next (s.setPc p)) ∨
    (∃ p, isControlTransfer i.mnemonic = true ∧ destination i = some linkReg ∧
      exec i s = .next ((s.writeReg linkReg s.nextPc).setPc p)) ∨
    (mayOverflow i.mnemonic = true ∧ exec i s = .next (s.takeFault ⟨.integerOverflow, none⟩)) ∨
    (∃ k w rs imm r, memoryAccess i = some (k, w, rs, imm) ∧
      s.accessCheck k w (s.effectiveAddress rs imm) = some r ∧ exec i s = .next (s.takeFault r)) := by
  have addOrRaise (d : RegIdx) (b : Bool) (v : Word) :
      s.writeUnlessOverflow d b v = .next (s.writeReg d v).advance ∨
      s.writeUnlessOverflow d b v = .next (s.takeFault ⟨.integerOverflow, none⟩) := by
    cases b
    · exact .inl rfl
    · exact .inr rfl
  have hilo (b : Bool) (h l : Word) :
      ∃ h' l' n,
        (if b then Host.Outcome.next s.drawHiLo.advance else .next (s.writeHiLo h l).advance : Result) =
        .next ({ s with hi := h', lo := l', draws := n } : State).advance := by
    cases b
    · exact ⟨h, l, s.draws, rfl⟩
    · exact ⟨_, _, _, rfl⟩
  cases i with
  | add rd rs rt | sub rd rs rt | addi rt rs imm =>
    exact (addOrRaise _ _ _).elim (fun e => .inl ⟨_, _, rfl, e⟩) fun e =>
      .inr (.inr (.inr (.inr (.inr (.inl ⟨rfl, e⟩)))))
  | div rs rt | divu rs rt =>
    obtain ⟨h, l, n, e⟩ := hilo _ _ _
    exact .inr (.inl ⟨h, l, n, rfl, e⟩)
  | mult rs rt | multu rs rt => exact .inr (.inl ⟨_, _, _, rfl, rfl⟩)
  | lw rt imm rs | lh rt imm rs | lhu rt imm rs | lb rt imm rs | lbu rt imm rs =>
    rcases load_cases s _ _ _ _ _ with ⟨r, h, e⟩ | ⟨v, h, e⟩
    · exact .inr (.inr (.inr (.inr (.inr (.inr ⟨_, _, _, _, r, rfl, h, e⟩)))))
    · exact .inl ⟨_, _, rfl, e⟩
  | sw rt imm rs | sh rt imm rs | sb rt imm rs =>
    rcases store_cases s _ _ _ _ with ⟨r, h, e⟩ | ⟨t, h, e⟩
    · exact .inr (.inr (.inr (.inr (.inr (.inr ⟨_, _, _, _, r, rfl, h, e⟩)))))
    · exact .inr (.inr (.inl ⟨_, _, _, _, t, rfl, rfl, h, e⟩))
  | beq _ _ _ | bne _ _ _ | blez _ _ | bgtz _ _ | bltz _ _ | bgez _ _ | j _ | jr _ =>
    exact .inr (.inr (.inr (.inl ⟨_, rfl, rfl⟩)))
  | bltzal _ _ | bgezal _ _ | jal _ => exact .inr (.inr (.inr (.inr (.inl ⟨_, rfl, rfl, rfl⟩))))
  | addu _ _ _ | subu _ _ _ | and _ _ _ | or _ _ _ | xor _ _ _ | nor _ _ _ | slt _ _ _ | sltu _ _ _
  | sllv _ _ _ | srlv _ _ _ | srav _ _ _ | sll _ _ _ | srl _ _ _ | sra _ _ _ | mfhi _ | mflo _
  | addiu _ _ _ | andi _ _ _ | ori _ _ _ | xori _ _ _ | lui _ _ => exact .inl ⟨_, _, rfl, rfl⟩

/-! ### Fetch and step -/

/-- The decoded instruction is what a step runs, once the fetch gives it. -/
theorem step_of_fetch {s : State} {i : Instr} (hs : s.status = .running) (hp : s.pc ≠ s.params.endPc)
    (h : s.fetchInstr = .ok i) : step s = exec i s := by
  simp only [step, hs, if_neg hp, h]

/-- A fetch that raises is the fault the step takes. -/
theorem step_of_fetch_raise {s : State} {r : Raise} (hs : s.status = .running)
    (hp : s.pc ≠ s.params.endPc) (h : s.fetchInstr = .error r) :
    Faults s (step s) r.cause r.info := by
  simp only [step, hs, if_neg hp, h]
  rfl

/-- What a step from a running state can do. -/
theorem step_cases {s : State} (hs : s.status = .running) :
    (s.pc = s.params.endPc ∧ step s = .next s.endRun) ∨
    (∃ r, s.pc ≠ s.params.endPc ∧ s.fetchInstr = .error r ∧ step s = .next (s.takeFault r)) ∨
    (∃ i, s.pc ≠ s.params.endPc ∧ s.fetchInstr = .ok i ∧ step s = exec i s) := by
  by_cases hp : s.pc = s.params.endPc
  · exact .inl ⟨hp, by simp only [step, hs, if_pos hp]⟩
  · cases h : s.fetchInstr with
    | error r => exact .inr (.inl ⟨r, hp, rfl, step_of_fetch_raise hs hp h⟩)
    | ok i => exact .inr (.inr ⟨i, hp, rfl, step_of_fetch hs hp h⟩)

end Sys2Proof.Machine
end

