-- ==== Sys2Proof/Laws/Operands.lean ====
section
/-! SUPPORT. What the operand forms and the comparisons are in exact arithmetic. -/

namespace Sys2Proof.Machine

/-! ### Immediates (30_encoding R65) -/

@[simp] theorem toInt_sextImm (imm : Imm16) : (sextImm imm).toInt = imm.toInt :=
  BitVec.toInt_signExtend_of_le (by decide)

theorem sextImm_eq_ofInt (imm : Imm16) : sextImm imm = BitVec.ofInt 32 imm.toInt := by
  rw [← toInt_sextImm, BitVec.ofInt_toInt]

@[simp] theorem getLsbD_zextImm (imm : Imm16) (k : Nat) :
    (zextImm imm).getLsbD k = (decide (k < 32) && imm.getLsbD k) := by
  simp [zextImm]

/-! ### Addresses (42_data_transfer R140, 30_encoding R66, R67) -/

theorem ofNat_toNat_word (w : Word) : BitVec.ofInt 32 (w.toNat : Int) = w := by
  simp

/-- The integer form of the effective address. -/
theorem effectiveAddress_eq (s : State) (rs : RegIdx) (imm : Imm16) :
    s.effectiveAddress rs imm = BitVec.ofInt 32 (((s.readReg rs).toNat : Int) + imm.toInt) := by
  unfold State.effectiveAddress
  rw [BitVec.ofInt_add, ofNat_toNat_word, sextImm_eq_ofInt]

/-- The branch target is the exact one. -/
theorem branchTarget_eq (s : State) (imm : Imm16) : s.branchTarget imm = exactBranchTarget s imm := by
  unfold State.branchTarget exactBranchTarget State.nextPc
  rw [BitVec.ofInt_add, BitVec.ofInt_add, ofNat_toNat_word]
  congr 1
  cases s.params.branchShift
  · rw [← sextImm_eq_ofInt]
    exact BitVec.shiftLeft_zero _
  · show sextImm imm <<< 2 = BitVec.ofInt 32 (imm.toInt * 4)
    rw [BitVec.ofInt_mul, ← sextImm_eq_ofInt, BitVec.shiftLeft_eq_mul_twoPow]
    rfl

/-- Where a conditional branch goes is the exact place. -/
theorem branchPc_eq (s : State) (taken : Bool) (imm : Imm16) :
    s.branchPc taken imm = exactBranchPc s imm taken := by
  unfold State.branchPc exactBranchPc
  rw [branchTarget_eq]
  rfl

/-- The three fields of the address of a jump. -/
theorem jumpAddress_region (next : Word) (target : Target26) :
    (jumpAddress next target).extractLsb' 28 4 = next.extractLsb' 28 4 := by
  unfold jumpAddress
  rw [BitVec.extractLsb'_append_eq_of_le (by decide)]
  exact BitVec.extractLsb'_append_eq_left

theorem jumpAddress_target (next : Word) (target : Target26) :
    (jumpAddress next target).extractLsb' 2 26 = target := by
  unfold jumpAddress
  rw [BitVec.extractLsb'_append_eq_of_le (by decide)]
  exact BitVec.extractLsb'_append_eq_right

theorem jumpAddress_low (next : Word) (target : Target26) :
    (jumpAddress next target).extractLsb' 0 2 = 0#2 :=
  BitVec.extractLsb'_append_eq_right

/-! ### Comparisons with zero (43_compare_branch R162) -/

theorem ltZero_eq_msb (a : Word) : ltZero a = a.msb := by
  rw [ltZero, BitVec.msb_eq_toInt]

theorem geZero_eq_msb (a : Word) : geZero a = !a.msb := by
  rw [geZero, BitVec.msb_eq_toInt, ← decide_not]
  exact decide_eq_decide.2 ⟨by omega, by omega⟩

theorem toInt_eq_zero_iff (a : Word) : a.toInt = 0 ↔ a = 0#32 :=
  ⟨fun h => BitVec.eq_of_toInt_eq h, fun h => by rw [h]; rfl⟩

theorem leZero_eq_msb (a : Word) : leZero a = (a.msb || a == 0#32) := by
  rw [leZero, BitVec.msb_eq_toInt, Bool.eq_iff_iff]
  simp only [decide_eq_true_eq, Bool.or_eq_true, beq_iff_eq, ← toInt_eq_zero_iff]
  omega

theorem gtZero_eq_msb (a : Word) : gtZero a = (!a.msb && a != 0#32) := by
  rw [gtZero, BitVec.msb_eq_toInt, Bool.eq_iff_iff]
  simp only [decide_eq_true_eq, Bool.and_eq_true, Bool.not_eq_true', decide_eq_false_iff_not, bne_iff_ne,
    ne_eq, ← toInt_eq_zero_iff]
  omega

/-! ### The amount of a variable shift (30_encoding R68) -/

theorem shiftAmount_eq (s : State) (rs : RegIdx) : s.shiftAmount rs = (s.readReg rs).toNat % 32 := by
  simp [State.shiftAmount]

end Sys2Proof.Machine
end

