-- ==== Sys2Proof/Laws/PerInstr.lean ====
section
/-! SUPPORT. Statements about every instruction as syntax, one lemma per constructor. -/

namespace Sys2Proof.Laws

/-- The word of an instruction is in the instruction's own row of the opcode table: the formats of 30_encoding R61 to
R63 agree with the masks of R71, and the fields R73 says are unused are zero. -/
def EncodingInRow.Statement (i : Instr) : Prop :=
  i.mnemonic.admits (encode i) = true

/-- A row admits an R-type word when each fixed field of the word is the row's. -/
theorem admits_encodeR {m : Mnemonic} {rs rt rd : RegIdx} {shamt : Shamt} {funct : BitVec 6}
    (hop : 0b000000#6 &&& fieldOp m.row.mask = fieldOp m.row.bits)
    (hrs : rs &&& fieldRs m.row.mask = fieldRs m.row.bits)
    (hrt : rt &&& fieldRt m.row.mask = fieldRt m.row.bits)
    (hrd : rd &&& fieldRd m.row.mask = fieldRd m.row.bits)
    (hsh : shamt &&& fieldShamt m.row.mask = fieldShamt m.row.bits)
    (hfn : funct &&& fieldFunct m.row.mask = fieldFunct m.row.bits) :
    m.admits (encodeR rs rt rd shamt funct) = true := by
  rw [admits_iff_fields]
  simp only [fieldOp_encodeR, fieldRs_encodeR, fieldRt_encodeR, fieldRd_encodeR, fieldShamt_encodeR,
    fieldFunct_encodeR]
  exact ⟨hop, hrs, hrt, hrd, hsh, hfn⟩

/-- A row whose mask leaves the immediate free admits an I-type word when `op`, `rs` and `rt` are the row's. -/
theorem admits_encodeI {m : Mnemonic} {op : BitVec 6} {rs rt : RegIdx} {imm : Imm16}
    (hop : op &&& fieldOp m.row.mask = fieldOp m.row.bits)
    (hrs : rs &&& fieldRs m.row.mask = fieldRs m.row.bits)
    (hrt : rt &&& fieldRt m.row.mask = fieldRt m.row.bits)
    (hmask : fieldImm m.row.mask = 0) (hbits : fieldImm m.row.bits = 0) :
    m.admits (encodeI op rs rt imm) = true := by
  obtain ⟨m1, m2, m3⟩ := fieldImm_parts m.row.mask
  obtain ⟨b1, b2, b3⟩ := fieldImm_parts m.row.bits
  rw [hmask] at m1 m2 m3
  rw [hbits] at b1 b2 b3
  rw [admits_iff_fields, fieldOp_encodeI, fieldRs_encodeI, fieldRt_encodeI, m1, m2, m3, b1, b2, b3]
  exact ⟨hop, hrs, hrt, BitVec.and_zero, BitVec.and_zero, BitVec.and_zero⟩

/-- A row whose mask leaves the target free admits a J-type word when `op` is the row's. -/
theorem admits_encodeJ {m : Mnemonic} {op : BitVec 6} {target : Target26}
    (hop : op &&& fieldOp m.row.mask = fieldOp m.row.bits)
    (hmask : fieldTarget m.row.mask = 0) (hbits : fieldTarget m.row.bits = 0) :
    m.admits (encodeJ op target) = true := by
  obtain ⟨m1, m2, m3⟩ := fieldTarget_parts m.row.mask
  obtain ⟨b1, b2, b3⟩ := fieldTarget_parts m.row.bits
  obtain ⟨m4, m5, m6⟩ := fieldImm_parts m.row.mask
  obtain ⟨b4, b5, b6⟩ := fieldImm_parts m.row.bits
  rw [hmask] at m1 m2 m3
  rw [hbits] at b1 b2 b3
  rw [m3] at m4 m5 m6
  rw [b3] at b4 b5 b6
  rw [admits_iff_fields, fieldOp_encodeJ, m1, m2, m4, m5, m6, b1, b2, b4, b5, b6]
  exact ⟨hop, BitVec.and_zero, BitVec.and_zero, BitVec.and_zero, BitVec.and_zero, BitVec.and_zero⟩

theorem EncodingInRow.add (rd rs rt : RegIdx) : EncodingInRow.Statement (.add rd rs rt) :=
  admits_encodeR (m := .add) (by decide) BitVec.and_zero BitVec.and_zero BitVec.and_zero (by decide) (by decide)

theorem EncodingInRow.addu (rd rs rt : RegIdx) : EncodingInRow.Statement (.addu rd rs rt) :=
  admits_encodeR (m := .addu) (by decide) BitVec.and_zero BitVec.and_zero BitVec.and_zero (by decide) (by decide)

theorem EncodingInRow.sub (rd rs rt : RegIdx) : EncodingInRow.Statement (.sub rd rs rt) :=
  admits_encodeR (m := .sub) (by decide) BitVec.and_zero BitVec.and_zero BitVec.and_zero (by decide) (by decide)

theorem EncodingInRow.subu (rd rs rt : RegIdx) : EncodingInRow.Statement (.subu rd rs rt) :=
  admits_encodeR (m := .subu) (by decide) BitVec.and_zero BitVec.and_zero BitVec.and_zero (by decide) (by decide)

theorem EncodingInRow.and (rd rs rt : RegIdx) : EncodingInRow.Statement (.and rd rs rt) :=
  admits_encodeR (m := .and) (by decide) BitVec.and_zero BitVec.and_zero BitVec.and_zero (by decide) (by decide)

theorem EncodingInRow.or (rd rs rt : RegIdx) : EncodingInRow.Statement (.or rd rs rt) :=
  admits_encodeR (m := .or) (by decide) BitVec.and_zero BitVec.and_zero BitVec.and_zero (by decide) (by decide)

theorem EncodingInRow.xor (rd rs rt : RegIdx) : EncodingInRow.Statement (.xor rd rs rt) :=
  admits_encodeR (m := .xor) (by decide) BitVec.and_zero BitVec.and_zero BitVec.and_zero (by decide) (by decide)

theorem EncodingInRow.nor (rd rs rt : RegIdx) : EncodingInRow.Statement (.nor rd rs rt) :=
  admits_encodeR (m := .nor) (by decide) BitVec.and_zero BitVec.and_zero BitVec.and_zero (by decide) (by decide)

theorem EncodingInRow.slt (rd rs rt : RegIdx) : EncodingInRow.Statement (.slt rd rs rt) :=
  admits_encodeR (m := .slt) (by decide) BitVec.and_zero BitVec.and_zero BitVec.and_zero (by decide) (by decide)

theorem EncodingInRow.sltu (rd rs rt : RegIdx) : EncodingInRow.Statement (.sltu rd rs rt) :=
  admits_encodeR (m := .sltu) (by decide) BitVec.and_zero BitVec.and_zero BitVec.and_zero (by decide) (by decide)

theorem EncodingInRow.sllv (rd rt rs : RegIdx) : EncodingInRow.Statement (.sllv rd rt rs) :=
  admits_encodeR (m := .sllv) (by decide) BitVec.and_zero BitVec.and_zero BitVec.and_zero (by decide) (by decide)

theorem EncodingInRow.srlv (rd rt rs : RegIdx) : EncodingInRow.Statement (.srlv rd rt rs) :=
  admits_encodeR (m := .srlv) (by decide) BitVec.and_zero BitVec.and_zero BitVec.and_zero (by decide) (by decide)

theorem EncodingInRow.srav (rd rt rs : RegIdx) : EncodingInRow.Statement (.srav rd rt rs) :=
  admits_encodeR (m := .srav) (by decide) BitVec.and_zero BitVec.and_zero BitVec.and_zero (by decide) (by decide)

theorem EncodingInRow.sll (rd rt : RegIdx) (shamt : Shamt) : EncodingInRow.Statement (.sll rd rt shamt) :=
  admits_encodeR (m := .sll) (by decide) (by decide) BitVec.and_zero BitVec.and_zero BitVec.and_zero (by decide)

theorem EncodingInRow.srl (rd rt : RegIdx) (shamt : Shamt) : EncodingInRow.Statement (.srl rd rt shamt) :=
  admits_encodeR (m := .srl) (by decide) (by decide) BitVec.and_zero BitVec.and_zero BitVec.and_zero (by decide)

theorem EncodingInRow.sra (rd rt : RegIdx) (shamt : Shamt) : EncodingInRow.Statement (.sra rd rt shamt) :=
  admits_encodeR (m := .sra) (by decide) (by decide) BitVec.and_zero BitVec.and_zero BitVec.and_zero (by decide)

theorem EncodingInRow.mult (rs rt : RegIdx) : EncodingInRow.Statement (.mult rs rt) :=
  admits_encodeR (m := .mult) (by decide) BitVec.and_zero BitVec.and_zero (by decide) (by decide) (by decide)

theorem EncodingInRow.multu (rs rt : RegIdx) : EncodingInRow.Statement (.multu rs rt) :=
  admits_encodeR (m := .multu) (by decide) BitVec.and_zero BitVec.and_zero (by decide) (by decide) (by decide)

theorem EncodingInRow.div (rs rt : RegIdx) : EncodingInRow.Statement (.div rs rt) :=
  admits_encodeR (m := .div) (by decide) BitVec.and_zero BitVec.and_zero (by decide) (by decide) (by decide)

theorem EncodingInRow.divu (rs rt : RegIdx) : EncodingInRow.Statement (.divu rs rt) :=
  admits_encodeR (m := .divu) (by decide) BitVec.and_zero BitVec.and_zero (by decide) (by decide) (by decide)

theorem EncodingInRow.mfhi (rd : RegIdx) : EncodingInRow.Statement (.mfhi rd) :=
  admits_encodeR (m := .mfhi) (by decide) (by decide) (by decide) BitVec.and_zero (by decide) (by decide)

theorem EncodingInRow.mflo (rd : RegIdx) : EncodingInRow.Statement (.mflo rd) :=
  admits_encodeR (m := .mflo) (by decide) (by decide) (by decide) BitVec.and_zero (by decide) (by decide)

theorem EncodingInRow.jr (rs : RegIdx) : EncodingInRow.Statement (.jr rs) :=
  admits_encodeR (m := .jr) (by decide) BitVec.and_zero (by decide) (by decide) (by decide) (by decide)

theorem EncodingInRow.addi (rt rs : RegIdx) (imm : Imm16) : EncodingInRow.Statement (.addi rt rs imm) :=
  admits_encodeI (m := .addi) (by decide) BitVec.and_zero BitVec.and_zero (by decide) (by decide)

theorem EncodingInRow.addiu (rt rs : RegIdx) (imm : Imm16) : EncodingInRow.Statement (.addiu rt rs imm) :=
  admits_encodeI (m := .addiu) (by decide) BitVec.and_zero BitVec.and_zero (by decide) (by decide)

theorem EncodingInRow.andi (rt rs : RegIdx) (imm : Imm16) : EncodingInRow.Statement (.andi rt rs imm) :=
  admits_encodeI (m := .andi) (by decide) BitVec.and_zero BitVec.and_zero (by decide) (by decide)

theorem EncodingInRow.ori (rt rs : RegIdx) (imm : Imm16) : EncodingInRow.Statement (.ori rt rs imm) :=
  admits_encodeI (m := .ori) (by decide) BitVec.and_zero BitVec.and_zero (by decide) (by decide)

theorem EncodingInRow.xori (rt rs : RegIdx) (imm : Imm16) : EncodingInRow.Statement (.xori rt rs imm) :=
  admits_encodeI (m := .xori) (by decide) BitVec.and_zero BitVec.and_zero (by decide) (by decide)

theorem EncodingInRow.lb (rt : RegIdx) (imm : Imm16) (rs : RegIdx) : EncodingInRow.Statement (.lb rt imm rs) :=
  admits_encodeI (m := .lb) (by decide) BitVec.and_zero BitVec.and_zero (by decide) (by decide)

theorem EncodingInRow.lh (rt : RegIdx) (imm : Imm16) (rs : RegIdx) : EncodingInRow.Statement (.lh rt imm rs) :=
  admits_encodeI (m := .lh) (by decide) BitVec.and_zero BitVec.and_zero (by decide) (by decide)

theorem EncodingInRow.lw (rt : RegIdx) (imm : Imm16) (rs : RegIdx) : EncodingInRow.Statement (.lw rt imm rs) :=
  admits_encodeI (m := .lw) (by decide) BitVec.and_zero BitVec.and_zero (by decide) (by decide)

theorem EncodingInRow.lbu (rt : RegIdx) (imm : Imm16) (rs : RegIdx) : EncodingInRow.Statement (.lbu rt imm rs) :=
  admits_encodeI (m := .lbu) (by decide) BitVec.and_zero BitVec.and_zero (by decide) (by decide)

theorem EncodingInRow.lhu (rt : RegIdx) (imm : Imm16) (rs : RegIdx) : EncodingInRow.Statement (.lhu rt imm rs) :=
  admits_encodeI (m := .lhu) (by decide) BitVec.and_zero BitVec.and_zero (by decide) (by decide)

theorem EncodingInRow.sb (rt : RegIdx) (imm : Imm16) (rs : RegIdx) : EncodingInRow.Statement (.sb rt imm rs) :=
  admits_encodeI (m := .sb) (by decide) BitVec.and_zero BitVec.and_zero (by decide) (by decide)

theorem EncodingInRow.sh (rt : RegIdx) (imm : Imm16) (rs : RegIdx) : EncodingInRow.Statement (.sh rt imm rs) :=
  admits_encodeI (m := .sh) (by decide) BitVec.and_zero BitVec.and_zero (by decide) (by decide)

theorem EncodingInRow.sw (rt : RegIdx) (imm : Imm16) (rs : RegIdx) : EncodingInRow.Statement (.sw rt imm rs) :=
  admits_encodeI (m := .sw) (by decide) BitVec.and_zero BitVec.and_zero (by decide) (by decide)

theorem EncodingInRow.beq (rs rt : RegIdx) (imm : Imm16) : EncodingInRow.Statement (.beq rs rt imm) :=
  admits_encodeI (m := .beq) (by decide) BitVec.and_zero BitVec.and_zero (by decide) (by decide)

theorem EncodingInRow.bne (rs rt : RegIdx) (imm : Imm16) : EncodingInRow.Statement (.bne rs rt imm) :=
  admits_encodeI (m := .bne) (by decide) BitVec.and_zero BitVec.and_zero (by decide) (by decide)

theorem EncodingInRow.lui (rt : RegIdx) (imm : Imm16) : EncodingInRow.Statement (.lui rt imm) :=
  admits_encodeI (m := .lui) (by decide) (by decide) BitVec.and_zero (by decide) (by decide)

theorem EncodingInRow.blez (rs : RegIdx) (imm : Imm16) : EncodingInRow.Statement (.blez rs imm) :=
  admits_encodeI (m := .blez) (by decide) BitVec.and_zero (by decide) (by decide) (by decide)

theorem EncodingInRow.bgtz (rs : RegIdx) (imm : Imm16) : EncodingInRow.Statement (.bgtz rs imm) :=
  admits_encodeI (m := .bgtz) (by decide) BitVec.and_zero (by decide) (by decide) (by decide)

theorem EncodingInRow.bltz (rs : RegIdx) (imm : Imm16) : EncodingInRow.Statement (.bltz rs imm) :=
  admits_encodeI (m := .bltz) (by decide) BitVec.and_zero (by decide) (by decide) (by decide)

theorem EncodingInRow.bgez (rs : RegIdx) (imm : Imm16) : EncodingInRow.Statement (.bgez rs imm) :=
  admits_encodeI (m := .bgez) (by decide) BitVec.and_zero (by decide) (by decide) (by decide)

theorem EncodingInRow.bltzal (rs : RegIdx) (imm : Imm16) : EncodingInRow.Statement (.bltzal rs imm) :=
  admits_encodeI (m := .bltzal) (by decide) BitVec.and_zero (by decide) (by decide) (by decide)

theorem EncodingInRow.bgezal (rs : RegIdx) (imm : Imm16) : EncodingInRow.Statement (.bgezal rs imm) :=
  admits_encodeI (m := .bgezal) (by decide) BitVec.and_zero (by decide) (by decide) (by decide)

theorem EncodingInRow.j (target : Target26) : EncodingInRow.Statement (.j target) :=
  admits_encodeJ (m := .j) (by decide) (by decide) (by decide)

theorem EncodingInRow.jal (target : Target26) : EncodingInRow.Statement (.jal target) :=
  admits_encodeJ (m := .jal) (by decide) (by decide) (by decide)

/-- The family over all instructions. -/
theorem encodingInRow_all (i : Instr) : EncodingInRow.Statement i :=
  match i with
  | .add rd rs rt => EncodingInRow.add rd rs rt
  | .addu rd rs rt => EncodingInRow.addu rd rs rt
  | .sub rd rs rt => EncodingInRow.sub rd rs rt
  | .subu rd rs rt => EncodingInRow.subu rd rs rt
  | .and rd rs rt => EncodingInRow.and rd rs rt
  | .or rd rs rt => EncodingInRow.or rd rs rt
  | .xor rd rs rt => EncodingInRow.xor rd rs rt
  | .nor rd rs rt => EncodingInRow.nor rd rs rt
  | .slt rd rs rt => EncodingInRow.slt rd rs rt
  | .sltu rd rs rt => EncodingInRow.sltu rd rs rt
  | .sllv rd rt rs => EncodingInRow.sllv rd rt rs
  | .srlv rd rt rs => EncodingInRow.srlv rd rt rs
  | .srav rd rt rs => EncodingInRow.srav rd rt rs
  | .sll rd rt shamt => EncodingInRow.sll rd rt shamt
  | .srl rd rt shamt => EncodingInRow.srl rd rt shamt
  | .sra rd rt shamt => EncodingInRow.sra rd rt shamt
  | .mult rs rt => EncodingInRow.mult rs rt
  | .multu rs rt => EncodingInRow.multu rs rt
  | .div rs rt => EncodingInRow.div rs rt
  | .divu rs rt => EncodingInRow.divu rs rt
  | .mfhi rd => EncodingInRow.mfhi rd
  | .mflo rd => EncodingInRow.mflo rd
  | .jr rs => EncodingInRow.jr rs
  | .addi rt rs imm => EncodingInRow.addi rt rs imm
  | .addiu rt rs imm => EncodingInRow.addiu rt rs imm
  | .andi rt rs imm => EncodingInRow.andi rt rs imm
  | .ori rt rs imm => EncodingInRow.ori rt rs imm
  | .xori rt rs imm => EncodingInRow.xori rt rs imm
  | .lb rt imm rs => EncodingInRow.lb rt imm rs
  | .lh rt imm rs => EncodingInRow.lh rt imm rs
  | .lw rt imm rs => EncodingInRow.lw rt imm rs
  | .lbu rt imm rs => EncodingInRow.lbu rt imm rs
  | .lhu rt imm rs => EncodingInRow.lhu rt imm rs
  | .sb rt imm rs => EncodingInRow.sb rt imm rs
  | .sh rt imm rs => EncodingInRow.sh rt imm rs
  | .sw rt imm rs => EncodingInRow.sw rt imm rs
  | .beq rs rt imm => EncodingInRow.beq rs rt imm
  | .bne rs rt imm => EncodingInRow.bne rs rt imm
  | .lui rt imm => EncodingInRow.lui rt imm
  | .blez rs imm => EncodingInRow.blez rs imm
  | .bgtz rs imm => EncodingInRow.bgtz rs imm
  | .bltz rs imm => EncodingInRow.bltz rs imm
  | .bgez rs imm => EncodingInRow.bgez rs imm
  | .bltzal rs imm => EncodingInRow.bltzal rs imm
  | .bgezal rs imm => EncodingInRow.bgezal rs imm
  | .j target => EncodingInRow.j target
  | .jal target => EncodingInRow.jal target

end Sys2Proof.Laws
end

