-- ==== Sys2Proof/Tests/Slice0.lean ====
section
/-! SUPPORT. The model's own tests. Expected results are the spec's: 95_test_vectors (named by section), the worked
examples of the rules, and bits written out from 30_encoding R71. Each test is one decoding or one step. -/

namespace Sys2Proof.Tests

open Sys2Proof Sys2Proof.Machine

/-! ### Helpers -/

/-- State.reset in byte order `e`, with the named registers set. -/
def start (e : Endian) (regs : List (RegIdx × Word)) : State :=
  regs.foldl (fun s r => s.writeReg r.1 r.2) { State.reset with params := { Config.params with endian := e } }

/-- `start` in the big byte order. -/
def regs (l : List (RegIdx × Word)) : State :=
  start .big l

/-- The word 0x8091A2F3 at 0x2000 and `x[2] = 0x2000` (95 section 2.3), beside other registers. -/
def withData (e : Endian) (l : List (RegIdx × Word)) : State :=
  (start e ((2, 0x2000#32) :: l)).placeWord 0x2000#32 0x8091A2F3#32

/-- The state after one step that runs the word `w` placed at `pc`. -/
def after (s : State) (w : Word) : Option State :=
  match step (s.withFetchWord 32 w.toNat) with
  | .next t => some t
  | _ => none

/-- A general register after the step. -/
def reg (s : State) (w : Word) (r : RegIdx) : Option Word :=
  (after s w).map fun t => t.readReg r

/-- `pc` after the step. -/
def pcAfter (s : State) (w : Word) : Option Word :=
  (after s w).map fun t => t.pc

/-- `HI` and `LO` after the step. -/
def hiLo (s : State) (w : Word) : Option (Word × Word) :=
  (after s w).map fun t => (t.hi, t.lo)

/-- The status after the step. -/
def statusAfter (s : State) (w : Word) : Option Status :=
  (after s w).map fun t => t.status

/-- The four bytes at 0x2000 after the step. -/
def bytes (s : State) (w : Word) : Option (List Byte) :=
  (after s w).map fun t => (List.range 4).map fun i => t.mem.read (0x2000 + i)

/-- `IntegerOverflow` at 0x00010000 (95 section 2.1, "Ov"). -/
def overflow : Option Status :=
  some (.faulted .integerOverflow 0x00010000#32 none)

/-- `AddressError` of an access of the instruction at 0x00010000. -/
def misaligned (k : AccessKind) (a : Word) : Option Status :=
  some (.faulted (.addressError k) 0x00010000#32 (some a))

/-! ### Ill-formed terms, refused by each check (WellFormed) -/

theorem test_register_32_refused : asmRegOk 31 = true ∧ asmRegOk 32 = false := by decide

theorem test_immediate_range :
    asmImmOk (-32768) = true ∧ asmImmOk 65535 = true ∧ asmImmOk (-32769) = false ∧ asmImmOk 65536 = false :=
  by decide

theorem test_shamt_range :
    asmShamtOk 0 = true ∧ asmShamtOk 31 = true ∧ asmShamtOk 32 = false ∧ asmShamtOk (-1) = false := by decide

theorem test_jump_address_checks :
    asmAddressOk 0x00010008#32 0x30408 = true ∧ asmAddressOk 0x00010008#32 0x30409 = false ∧
    asmAddressOk 0x00010008#32 0x10000000 = false ∧ asmAddressOk 0x00010008#32 (-4) = false ∧
    asmAddressOk 0x00010008#32 0x100030408 = false := by decide

theorem test_launch_misaligned_entry_refused :
    Launch.wf { Launch.reset with entryPc := 0x00010002#32 } = false := by decide

theorem test_launch_image_outside_space_refused :
    Launch.wf { Launch.reset with image := [(0x100000000, 0#8)] } = false := by decide

theorem test_memory_out_of_order_refused : Memory.wf [(5, 1#8), (4, 2#8)] = false := by decide

theorem test_memory_repeated_address_refused : Memory.wf [(4, 1#8), (4, 2#8)] = false := by decide

theorem test_memory_unlisted_value_refused : Memory.wf [(4, 0xFF#8)] = false := by decide

theorem test_memory_outside_space_refused : Memory.wf [(0x100000000, 1#8)] = false := by decide

theorem test_state_with_bad_memory_refused : State.wf { State.reset with mem := [(4, 0xFF#8)] } = false := by decide

theorem test_memory_canonical_accepted : Memory.wf [(0, 1#8), (0xFFFFFFFF, 2#8)] = true := by decide

/-! ### Every constructor is decoded from its word, written out from 30_encoding R71 -/

theorem test_decode_arithmetic :
    decode 0b000000_00010_00011_00001_00000_100000#32 = .ok (.add 1 2 3) ∧
    decode 0b000000_00010_00011_00001_00000_100001#32 = .ok (.addu 1 2 3) ∧
    decode 0b000000_00010_00011_00001_00000_100010#32 = .ok (.sub 1 2 3) ∧
    decode 0b000000_00010_00011_00001_00000_100011#32 = .ok (.subu 1 2 3) := by decide

theorem test_decode_logical :
    decode 0b000000_00010_00011_00001_00000_100100#32 = .ok (.and 1 2 3) ∧
    decode 0b000000_00010_00011_00001_00000_100101#32 = .ok (.or 1 2 3) ∧
    decode 0b000000_00010_00011_00001_00000_100110#32 = .ok (.xor 1 2 3) ∧
    decode 0b000000_00010_00011_00001_00000_100111#32 = .ok (.nor 1 2 3) := by decide

theorem test_decode_compare :
    decode 0b000000_00010_00011_00001_00000_101010#32 = .ok (.slt 1 2 3) ∧
    decode 0b000000_00010_00011_00001_00000_101011#32 = .ok (.sltu 1 2 3) := by decide

theorem test_decode_variable_shifts :
    decode 0b000000_00011_00010_00001_00000_000100#32 = .ok (.sllv 1 2 3) ∧
    decode 0b000000_00011_00010_00001_00000_000110#32 = .ok (.srlv 1 2 3) ∧
    decode 0b000000_00011_00010_00001_00000_000111#32 = .ok (.srav 1 2 3) := by decide

theorem test_decode_constant_shifts :
    decode 0b000000_00000_00010_00001_01010_000000#32 = .ok (.sll 1 2 10) ∧
    decode 0b000000_00000_00010_00001_01010_000010#32 = .ok (.srl 1 2 10) ∧
    decode 0b000000_00000_00010_00001_01010_000011#32 = .ok (.sra 1 2 10) := by decide

theorem test_decode_multiply_divide :
    decode 0b000000_00010_00011_00000_00000_011000#32 = .ok (.mult 2 3) ∧
    decode 0b000000_00010_00011_00000_00000_011001#32 = .ok (.multu 2 3) ∧
    decode 0b000000_00010_00011_00000_00000_011010#32 = .ok (.div 2 3) ∧
    decode 0b000000_00010_00011_00000_00000_011011#32 = .ok (.divu 2 3) := by decide

theorem test_decode_moves_and_jr :
    decode 0b000000_00000_00000_00001_00000_010000#32 = .ok (.mfhi 1) ∧
    decode 0b000000_00000_00000_00001_00000_010010#32 = .ok (.mflo 1) ∧
    decode 0b000000_11111_00000_00000_00000_001000#32 = .ok (.jr 31) := by decide

theorem test_decode_immediates :
    decode 0b001000_00010_00001_0000000001100100#32 = .ok (.addi 1 2 100) ∧
    decode 0b001001_00010_00001_0000000001100100#32 = .ok (.addiu 1 2 100) ∧
    decode 0b001100_00010_00001_0000000000001010#32 = .ok (.andi 1 2 10) ∧
    decode 0b001101_00010_00001_0000000000001010#32 = .ok (.ori 1 2 10) ∧
    decode 0b001110_00010_00001_0000000000001010#32 = .ok (.xori 1 2 10) ∧
    decode 0b001111_00000_00001_0000000000101000#32 = .ok (.lui 1 40) := by decide

theorem test_decode_loads :
    decode 0b100000_00011_00001_0000000000101000#32 = .ok (.lb 1 40 3) ∧
    decode 0b100001_00011_00001_0000000000101000#32 = .ok (.lh 1 40 3) ∧
    decode 0b100011_00010_00001_0000000001100100#32 = .ok (.lw 1 100 2) ∧
    decode 0b100100_00011_00001_0000000000101000#32 = .ok (.lbu 1 40 3) ∧
    decode 0b100101_00011_00001_0000000000101000#32 = .ok (.lhu 1 40 3) := by decide

theorem test_decode_stores :
    decode 0b101000_00011_00010_0000000000101001#32 = .ok (.sb 2 41 3) ∧
    decode 0b101001_00010_00011_0000000111110110#32 = .ok (.sh 3 502 2) ∧
    decode 0b101011_00100_00011_0000000111110100#32 = .ok (.sw 3 500 4) := by decide

theorem test_decode_branches :
    decode 0b000100_00001_00010_0000000001100100#32 = .ok (.beq 1 2 100) ∧
    decode 0b000101_00001_00010_0000000001100100#32 = .ok (.bne 1 2 100) ∧
    decode 0b000110_00001_00000_0000000001100100#32 = .ok (.blez 1 100) ∧
    decode 0b000111_00001_00000_0000000001100100#32 = .ok (.bgtz 1 100) := by decide

theorem test_decode_rt_group :
    decode 0b000001_00001_00000_0000000001100100#32 = .ok (.bltz 1 100) ∧
    decode 0b000001_00001_00001_0000000001100100#32 = .ok (.bgez 1 100) ∧
    decode 0b000001_00001_10000_0000000001100100#32 = .ok (.bltzal 1 100) ∧
    decode 0b000001_00001_10001_0000000001100100#32 = .ok (.bgezal 1 100) := by decide

theorem test_decode_jumps :
    decode 0b000010_00000000001100000100000010#32 = .ok (.j 0xC102) ∧
    decode 0b000011_00000000001100000100000010#32 = .ok (.jal 0xC102) := by decide

/-- 95 section 2.6: functions that are not admitted. -/
theorem test_reserved_functions :
    [0x0000000C#32, 0x0000000D#32, 0x0000000F#32, 0x00000011#32, 0x00000013#32, 0x03E0F809#32, 0x0043082C#32].all
      (fun w => decide (decode w = .error (.reserved w))) = true := by decide

/-- 95 section 2.6: a nonzero bit in an unused field (30_encoding R73). -/
theorem test_reserved_unused_fields :
    [0x00430860#32, 0x00500808#32, 0x00430818#32, 0x00200810#32, 0x00200000#32, 0x18210064#32, 0x1C210064#32,
      0x3C210028#32].all (fun w => decide (decode w = .error (.reserved w))) = true := by decide

/-- 95 section 2.6: opcodes and `rt` values that are not admitted. -/
theorem test_reserved_opcodes :
    [0x28410064#32, 0x2C410064#32, 0x04220064#32, 0x40000000#32, 0x44000000#32, 0x70431002#32, 0x88410000#32,
      0x98410000#32, 0xA8410000#32, 0xB8410000#32, 0xC0410000#32, 0xE0410000#32, 0xFFFFFFFF#32].all
      (fun w => decide (decode w = .error (.reserved w))) = true := by decide

theorem test_zero_word_is_sll :
    decode 0x00000000#32 = .ok (.sll 0 0 0) ∧ decode 0x00000040#32 = .ok (.sll 0 0 1) := by decide

theorem test_bytes_big :
    decodeBytes .big [0x8C#8, 0x41#8, 0x00#8, 0x64#8, 0xAA#8] = .ok (.lw 1 100 2, [0xAA#8]) := by decide

theorem test_bytes_little : decodeBytes .little [0x64#8, 0x00#8, 0x41#8, 0x8C#8] = .ok (.lw 1 100 2, []) := by decide

theorem test_three_bytes_truncated : decodeBytes .big [0x8C#8, 0x41#8, 0x00#8] = .error .truncated := by decide

theorem test_encode_figures :
    encode (.add 1 2 3) = 0x00430820#32 ∧ encode (.sllv 1 2 3) = 0x00620804#32 ∧
    encode (.sw 3 500 4) = 0xAC8301F4#32 ∧ encode (.bgezal 1 100) = 0x04310064#32 := by decide

/-! ### Assembly (30_encoding R80 to R84; the lines of the source, 95 sections 1.1 to 1.8) -/

theorem test_assemble_add : assembleText 0x00010000#32 "ADD $1, $2, $3" = some 0x00430820#32 := by decide

theorem test_assemble_comment :
    assembleText 0x00010000#32 "lw $1,100($2) # $1=Mem[$2+100]" = some 0x8C410064#32 := by decide

theorem test_assemble_R_register : assembleText 0x00010000#32 "SW R3, 500(R4)" = some 0xAC8301F4#32 := by decide

theorem test_assemble_negative : assembleText 0x00010000#32 "addi $1,$2,-1" = some 0x2041FFFF#32 := by decide

theorem test_assemble_jal_hex : assembleText 0x00010008#32 "jal 0x30408" = some 0x0C00C102#32 := by decide

theorem test_assemble_jal_decimal : assembleText 0x00010000#32 "JAL 1000" = some 0x0C0000FA#32 := by decide

theorem test_assemble_shift_order : assembleText 0x00010000#32 "sllv $1,$2,$3" = some 0x00620804#32 := by decide

theorem test_assemble_high_immediate :
    assembleText 0x00010000#32 "xori $1,$2,0xFF0F" = some 0x3841FF0F#32 := by decide

/-- A register where a constant belongs (90 C8), a register that does not exist, a pseudo-instruction (R85). -/
theorem test_assemble_refuses :
    assembleText 0x00010000#32 "addi $1, $0, $1" = none ∧
    assembleText 0x00010000#32 "add $1, $2, $32" = none ∧ assembleText 0x00010000#32 "move $1, $2" = none :=
  by decide

/-! ### Arithmetic, one step each (95 section 2.1) -/

theorem test_add_minus_one_plus_one :
    reg (regs [(2, 0xFFFFFFFF#32), (3, 0x00000001#32)]) 0x00430820#32 1 = some 0x00000000#32 := by decide

theorem test_add_to_zero_register_still_overflows :
    statusAfter (regs [(2, 0x7FFFFFFF#32), (3, 0x00000001#32)]) 0x00430020#32 = overflow := by decide

theorem test_sub_overflow :
    statusAfter (regs [(2, 0x00000000#32), (3, 0x80000000#32)]) 0x00430822#32 = overflow := by decide

theorem test_sub_no_overflow :
    reg (regs [(2, 0x80000000#32), (3, 0x80000000#32)]) 0x00430822#32 1 = some 0x00000000#32 := by decide

theorem test_addi_sign_extends : reg (regs [(2, 0x00000000#32)]) 0x20418000#32 1 = some 0xFFFF8000#32 := by decide

theorem test_addi_overflow : statusAfter (regs [(2, 0x80000000#32)]) 0x2041FFFF#32 = overflow := by decide

theorem test_addu_wraps :
    reg (regs [(2, 0x80000000#32), (3, 0x80000000#32)]) 0x00430821#32 1 = some 0x00000000#32 := by decide

theorem test_addu_source_is_destination :
    reg (regs [(1, 0x00000015#32)]) 0x00210821#32 1 = some 0x0000002A#32 := by decide

theorem test_subu_borrows :
    reg (regs [(2, 0x00000000#32), (3, 0x00000001#32)]) 0x00430823#32 1 = some 0xFFFFFFFF#32 := by decide

theorem test_addiu_sign_extends : reg (regs []) 0x24018000#32 1 = some 0xFFFF8000#32 := by decide

theorem test_addiu_no_overflow : reg (regs [(2, 0x7FFFFFFF#32)]) 0x24410001#32 1 = some 0x80000000#32 := by decide

theorem test_mult_negative :
    hiLo (regs [(2, 0xFFFFFFF9#32), (3, 0x00000003#32)]) 0x00430018#32 = some (0xFFFFFFFF#32, 0xFFFFFFEB#32) :=
  by decide

theorem test_mult_most_negative :
    hiLo (regs [(2, 0x80000000#32), (3, 0x80000000#32)]) 0x00430018#32 = some (0x40000000#32, 0x00000000#32) :=
  by decide

theorem test_multu_large :
    hiLo (regs [(2, 0xFFFFFFFF#32), (3, 0xFFFFFFFF#32)]) 0x00430019#32 = some (0xFFFFFFFE#32, 0x00000001#32) :=
  by decide

theorem test_multu_of_negative_bits :
    hiLo (regs [(2, 0xFFFFFFF9#32), (3, 0x00000003#32)]) 0x00430019#32 = some (0x00000002#32, 0xFFFFFFEB#32) :=
  by decide

theorem test_div_negative_dividend :
    hiLo (regs [(2, 0xFFFFFFF9#32), (3, 0x00000003#32)]) 0x0043001A#32 = some (0xFFFFFFFF#32, 0xFFFFFFFE#32) :=
  by decide

theorem test_div_negative_divisor :
    hiLo (regs [(2, 0x00000007#32), (3, 0xFFFFFFFD#32)]) 0x0043001A#32 = some (0x00000001#32, 0xFFFFFFFE#32) :=
  by decide

theorem test_divu_of_negative_bits :
    hiLo (regs [(2, 0xFFFFFFF9#32), (3, 0x00000003#32)]) 0x0043001B#32 = some (0x00000000#32, 0x55555553#32) :=
  by decide

theorem test_divu_large_divisor :
    hiLo (regs [(2, 0x00000007#32), (3, 0xFFFFFFFD#32)]) 0x0043001B#32 = some (0x00000007#32, 0x00000000#32) :=
  by decide

theorem test_mfhi : reg ((regs []).writeHiLo 1#32 2#32) 0x00000810#32 1 = some 1#32 := by decide

theorem test_mflo : reg ((regs []).writeHiLo 1#32 2#32) 0x00000812#32 1 = some 2#32 := by decide

/-! ### Division where the result is unpredictable: only what 95 section 2.1 lets a test assert -/

theorem test_div_by_zero_goes_on :
    (after (regs [(2, 7#32), (3, 0#32)]) 0x0043001A#32).map (fun t => (t.pc, t.status, t.readReg 2)) =
    some (0x00010004#32, .running, 7#32) := by decide

theorem test_divu_by_zero_goes_on :
    (after (regs [(2, 7#32), (3, 0#32)]) 0x0043001B#32).map (fun t => (t.pc, t.status, t.readReg 3)) =
    some (0x00010004#32, .running, 0#32) := by decide

/-! ### Logical and shift, one step each (95 section 2.2) -/

theorem test_and :
    reg (regs [(2, 0xF0F0A5A5#32), (3, 0x0FF05A5F#32)]) 0x00430824#32 1 = some 0x00F00005#32 := by decide

theorem test_or :
    reg (regs [(2, 0xF0F0A5A5#32), (3, 0x0FF05A5F#32)]) 0x00430825#32 1 = some 0xFFF0FFFF#32 := by decide

theorem test_xor :
    reg (regs [(2, 0xF0F0A5A5#32), (3, 0x0FF05A5F#32)]) 0x00430826#32 1 = some 0xFF00FFFA#32 := by decide

theorem test_nor :
    reg (regs [(2, 0xF0F0A5A5#32), (3, 0x0FF05A5F#32)]) 0x00430827#32 1 = some 0x000F0000#32 := by decide

theorem test_andi_zero_extends : reg (regs [(2, 0xF0F0A5A5#32)]) 0x3041FF0F#32 1 = some 0x0000A505#32 := by decide

theorem test_ori_zero_extends : reg (regs [(2, 0xF0F0A5A5#32)]) 0x3441FF0F#32 1 = some 0xF0F0FFAF#32 := by decide

theorem test_xori_is_exclusive_or : reg (regs [(2, 0xF0F0A5A5#32)]) 0x3841000A#32 1 = some 0xF0F0A5AF#32 := by decide

theorem test_sll_10 : reg (regs [(2, 0xF0F0A5A5#32)]) 0x00020A80#32 1 = some 0xC2969400#32 := by decide

theorem test_sll_31 : reg (regs [(2, 0xF0F0A5A5#32)]) 0x00020FC0#32 1 = some 0x80000000#32 := by decide

theorem test_srl_1 : reg (regs [(2, 0xF0F0A5A5#32)]) 0x00020842#32 1 = some 0x787852D2#32 := by decide

theorem test_srl_31 : reg (regs [(2, 0xF0F0A5A5#32)]) 0x00020FC2#32 1 = some 0x00000001#32 := by decide

theorem test_sra_10 : reg (regs [(2, 0xF0F0A5A5#32)]) 0x00020A83#32 1 = some 0xFFFC3C29#32 := by decide

theorem test_sra_31_positive : reg (regs [(2, 0x7FFFFFFF#32)]) 0x00020FC3#32 1 = some 0x00000000#32 := by decide

theorem test_sllv_4 :
    reg (regs [(2, 0x80000001#32), (3, 0x00000004#32)]) 0x00620804#32 1 = some 0x00000010#32 := by decide

theorem test_sllv_32_is_0 :
    reg (regs [(2, 0x80000001#32), (3, 0x00000020#32)]) 0x00620804#32 1 = some 0x80000001#32 := by decide

theorem test_srlv_33_is_1 :
    reg (regs [(2, 0x80000001#32), (3, 0x00000021#32)]) 0x00620806#32 1 = some 0x40000000#32 := by decide

theorem test_srlv_all_ones_is_31 :
    reg (regs [(2, 0x80000001#32), (3, 0xFFFFFFFF#32)]) 0x00620806#32 1 = some 0x00000001#32 := by decide

theorem test_srav_4 :
    reg (regs [(2, 0x80000001#32), (3, 0x00000004#32)]) 0x00620807#32 1 = some 0xF8000000#32 := by decide

theorem test_srav_all_ones_is_31 :
    reg (regs [(2, 0x80000001#32), (3, 0xFFFFFFFF#32)]) 0x00620807#32 1 = some 0xFFFFFFFF#32 := by decide

/-! ### Data transfer, one step each (95 section 2.3) -/

theorem test_lw_negative_displacement :
    reg (withData .big [(2, 0x00002004#32)]) 0x8C41FFFC#32 1 = some 0x8091A2F3#32 := by decide

theorem test_lw_misaligned :
    statusAfter (regs [(2, 0x00002000#32)]) 0x8C410002#32 = misaligned .load 0x00002002#32 := by decide

theorem test_lh_big : reg (withData .big []) 0x84410002#32 1 = some 0xFFFFA2F3#32 := by decide

theorem test_lh_little : reg (withData .little []) 0x84410002#32 1 = some 0xFFFF8091#32 := by decide

theorem test_lhu_big : reg (withData .big []) 0x94410000#32 1 = some 0x00008091#32 := by decide

theorem test_lhu_little : reg (withData .little []) 0x94410000#32 1 = some 0x0000A2F3#32 := by decide

theorem test_lb_big : reg (withData .big []) 0x80410001#32 1 = some 0xFFFFFF91#32 := by decide

theorem test_lb_little : reg (withData .little []) 0x80410001#32 1 = some 0xFFFFFFA2#32 := by decide

theorem test_lbu_big : reg (withData .big []) 0x90410003#32 1 = some 0x000000F3#32 := by decide

theorem test_lbu_little : reg (withData .little []) 0x90410003#32 1 = some 0x00000080#32 := by decide

theorem test_sw_big :
    bytes (withData .big [(3, 0x11223344#32)]) 0xAC430000#32 = some [0x11#8, 0x22#8, 0x33#8, 0x44#8] :=
  by decide

theorem test_sw_little :
    bytes (withData .little [(3, 0x11223344#32)]) 0xAC430000#32 = some [0x44#8, 0x33#8, 0x22#8, 0x11#8] :=
  by decide

theorem test_sh_big :
    bytes (withData .big [(3, 0x11223344#32)]) 0xA4430002#32 = some [0x80#8, 0x91#8, 0x33#8, 0x44#8] :=
  by decide

theorem test_sh_little :
    bytes (withData .little [(3, 0x11223344#32)]) 0xA4430002#32 = some [0xF3#8, 0xA2#8, 0x44#8, 0x33#8] :=
  by decide

theorem test_sb_big :
    bytes (withData .big [(3, 0x11223344#32)]) 0xA0430001#32 = some [0x80#8, 0x44#8, 0xA2#8, 0xF3#8] :=
  by decide

theorem test_sb_little :
    bytes (withData .little [(3, 0x11223344#32)]) 0xA0430001#32 = some [0xF3#8, 0x44#8, 0x91#8, 0x80#8] :=
  by decide

theorem test_lui_40 : reg (regs [(1, 0xFFFFFFFF#32)]) 0x3C010028#32 1 = some 0x00280000#32 := by decide

theorem test_lui_top_bit : reg (regs []) 0x3C018000#32 1 = some 0x80000000#32 := by decide

/-! ### Branches, one step each (95 section 2.4) -/

theorem test_beq_backward : pcAfter (regs []) 0x10008000#32 = some 0x00008004#32 := by decide

theorem test_bne_skips_one :
    pcAfter ((regs [(1, 0x0000002B#32), (2, 0x00000002#32)]).setPc 0x0001000C#32) 0x14220004#32 = some 0x00010014#32 :=
  by decide

theorem test_bne_equal :
    pcAfter (regs [(1, 0x00000005#32), (2, 0x00000005#32)]) 0x14220064#32 = some 0x00010004#32 := by decide

theorem test_blez_zero : pcAfter (regs [(1, 0x00000000#32)]) 0x18200064#32 = some 0x00010068#32 := by decide

theorem test_blez_one : pcAfter (regs [(1, 0x00000001#32)]) 0x18200064#32 = some 0x00010004#32 := by decide

theorem test_bgtz_one : pcAfter (regs [(1, 0x00000001#32)]) 0x1C200064#32 = some 0x00010068#32 := by decide

theorem test_bgtz_negative : pcAfter (regs [(1, 0x80000000#32)]) 0x1C200064#32 = some 0x00010004#32 := by decide

theorem test_bltz_negative : pcAfter (regs [(1, 0x80000000#32)]) 0x04200064#32 = some 0x00010068#32 := by decide

theorem test_bltz_zero : pcAfter (regs [(1, 0x00000000#32)]) 0x04200064#32 = some 0x00010004#32 := by decide

theorem test_bgez_zero : pcAfter (regs [(1, 0x00000000#32)]) 0x04210064#32 = some 0x00010068#32 := by decide

theorem test_bgez_negative : pcAfter (regs [(1, 0xFFFFFFFF#32)]) 0x04210064#32 = some 0x00010004#32 := by decide

theorem test_bltzal_reads_link_register_first :
    pcAfter (regs [(31, 0xFFFFFFFF#32)]) 0x07F00008#32 = some 0x0001000C#32 := by decide

theorem test_bltzal_not_taken_links :
    reg (regs [(1, 0x00000000#32), (31, 0xAAAAAAAA#32)]) 0x04300064#32 31 = some 0x00010004#32 := by decide

theorem test_bgezal_zero_register : pcAfter (regs []) 0x04110008#32 = some 0x0001000C#32 := by decide

theorem test_bgezal_not_taken_links :
    reg (regs [(31, 0xFFFFFFFF#32)]) 0x07F10008#32 31 = some 0x00010004#32 := by decide

/-- `BRANCH_OFFSET_SHIFT = 2` (95 section 2.4). -/
theorem test_beq_word_offset :
    pcAfter { regs [] with params := { Config.params with branchShift := .wordOffset } } 0x10000064#32 =
    some 0x00010194#32 := by decide

/-! ### Compares and jumps, one step each (95 section 2.5) -/

theorem test_slt_negative :
    reg (regs [(2, 0xFFFFFFFF#32), (3, 0x00000001#32)]) 0x0043082A#32 1 = some 0x00000001#32 := by decide

theorem test_slt_equal :
    reg (regs [(2, 0x00000005#32), (3, 0x00000005#32)]) 0x0043082A#32 1 = some 0x00000000#32 := by decide

theorem test_sltu_large :
    reg (regs [(2, 0xFFFFFFFF#32), (3, 0x00000001#32)]) 0x0043082B#32 1 = some 0x00000000#32 := by decide

theorem test_sltu_small :
    reg (regs [(2, 0x00000001#32), (3, 0xFFFFFFFF#32)]) 0x0043082B#32 1 = some 0x00000001#32 := by decide

theorem test_j_region_of_next :
    pcAfter ((regs []).setPc 0x5FFFFFFC#32) 0x08000000#32 = some 0x60000000#32 := by decide

theorem test_j_does_not_link : reg (regs [(31, 0x00000077#32)]) 0x0800C102#32 31 = some 0x00000077#32 := by decide

theorem test_jal_region_kept :
    pcAfter ((regs []).setPc 0x50000000#32) 0x0FFFFFFF#32 = some 0x5FFFFFFC#32 := by decide

theorem test_jal_link_wraps : reg ((regs []).setPc 0xFFFFFFFC#32) 0x0C000001#32 31 = some 0#32 := by decide

theorem test_jr_link : pcAfter (regs [(31, 0x0001000C#32)]) 0x03E00008#32 = some 0x0001000C#32 := by decide

theorem test_jr_misaligned_completes :
    pcAfter (regs [(2, 0x00030409#32)]) 0x00400008#32 = some 0x00030409#32 := by decide

/-! ### Steps that are no instruction (60_exceptions) -/

theorem test_zero_word_only_advances : pcAfter (regs []) 0x00000000#32 = some 0x00010004#32 := by decide

theorem test_reserved_word_faults :
    statusAfter (regs []) 0x3C210028#32 =
    some (.faulted .reservedInstruction 0x00010000#32 (some 0x3C210028#32)) := by decide

theorem test_misaligned_fetch_faults :
    statusAfter ((regs []).setPc 0x00030409#32) 0#32 =
    some (.faulted (.addressError .fetch) 0x00030409#32 (some 0x00030409#32)) := by decide

theorem test_refused_fetch_faults :
    statusAfter { regs [] with params := { Config.params with refused := [⟨0x00010003, 1⟩] } } 0#32 =
    some (.faulted (.busError .fetch) 0x00010000#32 (some 0x00010000#32)) := by decide

/-- `END_PC` is compared before the alignment check (R225). -/
theorem test_misaligned_end_pc_ends : statusAfter ((regs []).setPc 0xFFFFFFFF#32) 0#32 = some .ended := by decide

/-! ### Witnesses: for every statement with hypotheses, states and operands that meet them -/

/-- A state at 0x00010000 whose word there is `w`. -/
def placed (s : State) (w : Word) : State :=
  s.withFetchWord 32 w.toNat

/-- A parameter set that refuses the one address `a`. -/
def refusing (a : Nat) : Params :=
  { Config.params with refused := [⟨a, 1⟩] }

/-- `x[2] = a`, with the address `b` refused. -/
def guarded (a : Word) (b : Nat) : State :=
  { regs [(2, a)] with params := refusing b }

/-- `x[2] = a` and `x[3] = b`. -/
def two (a b : Word) : State :=
  regs [(2, a), (3, b)]

/-- The exact signed sum of `x[2]` and `x[3]`. -/
def exactSum (s : State) : Int :=
  (s.readReg 2).toInt + (s.readReg 3).toInt

/-- Their exact signed difference. -/
def exactDifference (s : State) : Int :=
  (s.readReg 2).toInt - (s.readReg 3).toInt

/-- The word of all ones at 0x10000, which is reserved. -/
def reservedAtPc : State :=
  placed (regs []) 0xFFFFFFFF#32

/-- A `lw` at 0x10000 in the little byte order. -/
def loadAtPc : State :=
  placed (start .little []) 0x8C410064#32

/-- No instruction has the word of all ones. -/
theorem no_instruction_all_ones (j : Instr) : encode j ≠ 0xFFFFFFFF#32 := by
  intro h
  have row : j.mnemonic.admits (encode j) = true := Laws.encodingInRow_all j
  rw [h] at row
  revert row
  cases j.mnemonic <;> decide

theorem witness_DecodeThenEncode : decode 0x00430820#32 = .ok (.add 1 2 3) := by decide

theorem witness_DecodingTakesTheUniqueRow_admitted : Mnemonic.add.admits 0x00430820#32 = true := by decide

theorem witness_DecodingTakesTheUniqueRow_reserved :
    ∀ m : Mnemonic, m.admits 0xFFFFFFFF#32 = false := by
  intro m
  cases m <;> decide

theorem witness_AssembledJumpReachesItsAddress :
    asmTarget 0x00010008#32 0x30408 = some 0xC102#26 ∧
    asmTarget 0x00010008#32 0x0FFFFFFC = some 0x3FFFFFF#26 ∧ asmTarget 0xFFFFFFFC#32 0 = some 0#26 :=
  by decide

theorem witness_LaunchState :
    imageInSpace [(0, 1#8), (0xFFFFFFFF, 2#8)] = true ∧
    (([(0, 1#8), (0xFFFFFFFF, 2#8)] : List Host.Cell).map Prod.fst).Nodup := by decide

theorem witness_WellFormedLaunchMeetsInvariant :
    Launch.wf { Launch.reset with image := [(0, 1#8), (0xFFFFFFFF, 2#8)] } = true := by decide

/-- Also of StepKeepsParameters and FloatingPointRegistersAreInert: a step that answers a next state. -/
theorem witness_StepKeepsInvariant :
    (placed State.reset 0xAC430000#32).wf = true ∧
    (match step (placed State.reset 0xAC430000#32) with | .next _ => true | _ => false) = true := by decide

theorem witness_OnlyRunningStatesStep :
    State.reset.status = .running ∧ State.reset.endRun.status = .ended ∧
    (State.reset.takeFault ⟨.integerOverflow, none⟩).status = .faulted .integerOverflow 0x00010000#32 none :=
  by decide

theorem witness_FaultsArePrecise :
    (placed State.reset 0xFFFFFFFF#32).status = .running ∧
    statusAfter State.reset 0xFFFFFFFF#32 = some (.faulted .reservedInstruction 0x00010000#32 (some 0xFFFFFFFF#32)) :=
  by decide

theorem witness_OnlyNamedInstructionsRaise_overflow :
    exec (.addi 1 2 1) (regs [(2, 0x7FFFFFFF#32)]) =
    .next ((regs [(2, 0x7FFFFFFF#32)]).takeFault ⟨.integerOverflow, none⟩) := by rfl

theorem witness_OnlyNamedInstructionsRaise_address :
    exec (.lw 1 2 2) (regs [(2, 0x2000#32)]) =
    .next ((regs [(2, 0x2000#32)]).takeFault ⟨.addressError .load, some 0x2002#32⟩) := by rfl

theorem witness_OnlyNamedInstructionsRaise_bus :
    (guarded 0x2000#32 0x2003).status = .running ∧
    exec (.sb 1 3 2) (guarded 0x2000#32 0x2003) =
      .next ((guarded 0x2000#32 0x2003).takeFault ⟨.busError .store, some 0x2003#32⟩) := ⟨by decide, by rfl⟩

theorem witness_RunEndsAtEndPc :
    ((regs []).setPc Config.endPc).status = .running ∧
    ((regs []).setPc Config.endPc).pc = ((regs []).setPc Config.endPc).params.endPc := by decide

theorem witness_FetchFaultsInOrder_alignment :
    ((regs []).setPc 3#32).status = .running ∧ ((regs []).setPc 3#32).pc ≠ Config.endPc ∧
    ((regs []).setPc 3#32).pc.toNat % 4 ≠ 0 := by decide

theorem witness_FetchFaultsInOrder_validity :
    (guarded 0#32 0x10003).status = .running ∧
    (guarded 0#32 0x10003).pc ≠ (guarded 0#32 0x10003).params.endPc ∧ (guarded 0#32 0x10003).pc.toNat % 4 = 0 ∧
    ∃ i : Nat, i < 4 ∧
      Params.memValid (guarded 0#32 0x10003).params ((guarded 0#32 0x10003).pc.toNat + i) = false :=
  ⟨by decide, by decide, by decide, 3, by decide, by decide⟩

theorem witness_FetchFaultsInOrder_decoding :
    reservedAtPc.status = .running ∧ reservedAtPc.pc ≠ reservedAtPc.params.endPc ∧ reservedAtPc.pc.toNat % 4 = 0 ∧
    (∀ i : Nat, i < 4 → Params.memValid reservedAtPc.params (reservedAtPc.pc.toNat + i) = true) ∧
    (∀ i : Nat, i < 4 → reservedAtPc.mem.read (reservedAtPc.pc.toNat + i) = byteOf .big .word 0xFFFFFFFF#32 i) ∧
    (∀ j : Instr, encode j ≠ 0xFFFFFFFF#32) :=
  ⟨by decide, by decide, by decide, by decide, by decide, no_instruction_all_ones⟩

theorem witness_StepRunsTheDecodedInstruction :
    loadAtPc.status = .running ∧ loadAtPc.pc ≠ loadAtPc.params.endPc ∧ loadAtPc.pc.toNat % 4 = 0 ∧
    (∀ j : Nat, j < 4 → Params.memValid loadAtPc.params (loadAtPc.pc.toNat + j) = true) ∧
    (∀ j : Nat, j < 4 → loadAtPc.mem.read (loadAtPc.pc.toNat + j) = byteOf .little .word 0x8C410064#32 j) ∧
    decode 0x8C410064#32 = .ok (.lw 1 100 2) := by decide

theorem witness_PlacedInstructionRuns :
    ((regs []).setPc 0xFFFFFFFC#32).wf = true ∧ ((regs []).setPc 0xFFFFFFFC#32).status = .running ∧
    ((regs []).setPc 0xFFFFFFFC#32).pc ≠ Config.endPc ∧ ((regs []).setPc 0xFFFFFFFC#32).pc.toNat % 4 = 0 ∧
    (∀ j : Nat, j < 4 → Params.memValid (regs []).params (0xFFFFFFFC + j) = true) := by decide

theorem witness_ZeroWordAndZeroDestinationDoNothing :
    destination (.add 0 2 3) = some 0#5 ∧
    exec (.add 0 2 3) (two 5#32 1#32) = .next (two 5#32 1#32).advance := ⟨by decide, by rfl⟩

theorem witness_WriteThenReadGivesTheValue :
    (regs []).wf = true ∧
    (regs []).memWrite .word 0xFFFFFFFC#32 0x11223344#32 = .ok ((regs []).placeWord 0xFFFFFFFC#32 0x11223344#32) :=
  ⟨by decide, by rfl⟩

/-- Of MemReadAssemblesItsBytesOrRaises and MemWriteWritesItsBytesOrRaises: the first clause. -/
theorem witness_accesses_misaligned :
    (guarded 0xFFFFFFFD#32 0).wf = true ∧
    ((guarded 0xFFFFFFFD#32 0).effectiveAddress 2 0).toNat % Width.word.bytes ≠ 0 ∧
    ((guarded 0xFFFFFFFD#32 0).effectiveAddress 2 0).toNat % Width.half.bytes ≠ 0 := by decide

/-- Of the same two: the second clause. -/
theorem witness_accesses_refused :
    ((guarded 0x2000#32 0x2003).effectiveAddress 2 0).toNat % Width.word.bytes = 0 ∧
    ∃ i : Nat, i < Width.word.bytes ∧ Params.memValid (guarded 0x2000#32 0x2003).params (0x2000 + i) = false :=
  ⟨by decide, 3, by decide, by decide⟩

/-- Of the same two: the third clause, at the top of the address space. -/
theorem witness_accesses_accepted :
    ((guarded 0xFFFFFFFC#32 0xFFFFFFFB).effectiveAddress 2 0).toNat % Width.word.bytes = 0 ∧
    ∀ i : Nat, i < Width.word.bytes →
      Params.memValid (guarded 0xFFFFFFFC#32 0xFFFFFFFB).params (0xFFFFFFFC + i) = true := by decide

theorem witness_StoredWordReadBackInParts :
    (regs [(4, 0#32)]).wf = true ∧ ((regs [(4, 0#32)]).effectiveAddress 4 0xFFFC#16).toNat % 4 = 0 ∧
    ∀ j : Nat, j < 4 →
      Params.memValid (regs [(4, 0#32)]).params (((regs [(4, 0#32)]).effectiveAddress 4 0xFFFC#16).toNat + j) = true :=
  by decide

/-- The store of 95 program P6. -/
theorem witness_StoredInstructionIsFetched :
    (two 0x00010000#32 0x20030001#32).wf = true ∧
    (two 0x00010000#32 0x20030001#32).readReg 3 = encode (.addi 3 0 1) ∧
    ((two 0x00010000#32 0x20030001#32).effectiveAddress 2 20).toNat % 4 = 0 ∧
    ∀ j : Nat, j < 4 → Params.memValid (two 0x00010000#32 0x20030001#32).params
      (((two 0x00010000#32 0x20030001#32).effectiveAddress 2 20).toNat + j) = true := by decide

/-- The two ends of the range. -/
theorem witness_AddSubAddi_add_fits :
    exactSum (two 0x7FFFFFFE#32 1#32) = 2 ^ 31 - 1 ∧ exactSum (two 0x80000001#32 0xFFFFFFFF#32) = -(2 ^ 31) :=
  by decide

/-- Just outside the range. -/
theorem witness_AddSubAddi_add_overflows :
    2 ^ 31 - 1 < exactSum (two 0x7FFFFFFF#32 1#32) ∧ exactSum (two 0x80000000#32 0xFFFFFFFF#32) < -(2 ^ 31) :=
  by decide

theorem witness_AddSubAddi_sub_fits :
    exactDifference (two 0x80000001#32 1#32) = -(2 ^ 31) ∧ exactDifference (two 0x7FFFFFFE#32 0xFFFFFFFF#32) = 2 ^ 31 - 1 :=
  by decide

theorem witness_AddSubAddi_sub_overflows :
    exactDifference (two 0x80000000#32 1#32) < -(2 ^ 31) ∧ 2 ^ 31 - 1 < exactDifference (two 0#32 0x80000000#32) :=
  by decide

theorem witness_AddSubAddi_addi :
    ((two 0x7FFFFFFE#32 0#32).readReg 2).toInt + (1#16).toInt = 2 ^ 31 - 1 ∧
    2 ^ 31 - 1 < ((two 0x7FFFFFFF#32 0#32).readReg 2).toInt + (1#16).toInt ∧
    ((two 0x80000000#32 0#32).readReg 2).toInt + (0xFFFF#16).toInt < -(2 ^ 31) := by decide

theorem witness_ProductLowWordIgnoresSign :
    exec (.mult 2 3) (two 0xFFFFFFF9#32 3#32) =
      .next ((two 0xFFFFFFF9#32 3#32).writeHiLo 0xFFFFFFFF#32 0xFFFFFFEB#32).advance ∧
    exec (.multu 2 3) (two 0xFFFFFFF9#32 3#32) =
      .next ((two 0xFFFFFFF9#32 3#32).writeHiLo 2#32 0xFFFFFFEB#32).advance := ⟨by rfl, by rfl⟩

theorem witness_DivideGivesQuotientAndRemainder :
    (two 0x80000000#32 1#32).readReg 3 ≠ 0#32 ∧
    ¬((two 0x80000000#32 1#32).readReg 2 = 0x80000000#32 ∧ (two 0x80000000#32 1#32).readReg 3 = 0xFFFFFFFF#32) ∧
    (two 0x80000001#32 0xFFFFFFFF#32).readReg 3 ≠ 0#32 ∧
    ¬((two 0x80000001#32 0xFFFFFFFF#32).readReg 2 = 0x80000000#32 ∧
      (two 0x80000001#32 0xFFFFFFFF#32).readReg 3 = 0xFFFFFFFF#32) := by decide

theorem witness_UndefinedDivisionGoesOn :
    (two 7#32 0#32).readReg 3 = 0#32 ∧
    (two 0x80000000#32 0xFFFFFFFF#32).readReg 2 = 0x80000000#32 ∧
    (two 0x80000000#32 0xFFFFFFFF#32).readReg 3 = 0xFFFFFFFF#32 := by decide

theorem witness_LoadsWriteWhatIsRead_word :
    (withData .big []).memRead .load .word ((withData .big []).effectiveAddress 2 0) = .ok 0x8091A2F3#32 :=
  by rfl

theorem witness_LoadsWriteWhatIsRead_half :
    (withData .big []).memRead .load .half ((withData .big []).effectiveAddress 2 2) = .ok 0xA2F3#16 := by rfl

theorem witness_LoadsWriteWhatIsRead_byte :
    (withData .big []).memRead .load .byte ((withData .big []).effectiveAddress 2 3) = .ok 0xF3#8 := by rfl

/-- sw, sh and sb at 0x2000, just below a refused address. -/
theorem witness_StoresWriteTheirBytes_accepted :
    (guarded 0x2000#32 0x2004).wf = true ∧
    ((guarded 0x2000#32 0x2004).effectiveAddress 2 0).toNat % 4 = 0 ∧
    ((guarded 0x2000#32 0x2004).effectiveAddress 2 0).toNat % 2 = 0 ∧
    ∀ j : Nat, j < 4 → Params.memValid (guarded 0x2000#32 0x2004).params
      (((guarded 0x2000#32 0x2004).effectiveAddress 2 0).toNat + j) = true := by decide

theorem witness_StoresWriteTheirBytes_misaligned :
    ((guarded 0x2000#32 0).effectiveAddress 2 2).toNat % 4 ≠ 0 ∧
    ((guarded 0x2000#32 0).effectiveAddress 2 1).toNat % 2 ≠ 0 := by decide

/-- sw at 0x2000, sh at 0x2002, sb at 0x2003, the last byte of each refused. -/
theorem witness_StoresWriteTheirBytes_refused :
    (0x2000 % 4 = 0 ∧ ¬∀ j : Nat, j < 4 → Params.memValid (guarded 0x2000#32 0x2003).params (0x2000 + j) = true) ∧
    (0x2002 % 2 = 0 ∧ ¬∀ j : Nat, j < 2 → Params.memValid (guarded 0x2000#32 0x2003).params (0x2002 + j) = true) ∧
    ¬∀ j : Nat, j < 1 → Params.memValid (guarded 0x2000#32 0x2003).params (0x2003 + j) = true := by decide

theorem witness_MisalignedAccessFaults :
    memoryAccess (.lhu 1 3 2) = some (.load, .half, 2#5, 3#16) ∧
    ((guarded 0x2000#32 0).effectiveAddress 2 3).toNat % Width.half.bytes ≠ 0 := by decide

theorem witness_MisalignedAccessFaults_byte :
    memoryAccess (.sb 3 3 2) = some (.store, .byte, 2#5, 3#16) ∧
    (guarded 0x2000#32 0x2003).status = .running ∧
    exec (.sb 3 3 2) (guarded 0x2000#32 0x2003) =
      .next ((guarded 0x2000#32 0x2003).takeFault ⟨.busError .store, some 0x2003#32⟩) :=
  ⟨by decide, by decide, by rfl⟩

theorem witness_RefusedAccessFaults :
    memoryAccess (.lw 1 0 2) = some (.load, .word, 2#5, 0#16) ∧
    ((guarded 0x2000#32 0x2003).effectiveAddress 2 0).toNat % Width.word.bytes = 0 ∧ 3 < Width.word.bytes ∧
    Params.memValid (guarded 0x2000#32 0x2003).params
      (((guarded 0x2000#32 0x2003).effectiveAddress 2 0).toNat + 3) = false := by decide

theorem witness_BranchOnEquality :
    (regs [(1, 5#32), (2, 5#32)]).readReg 1 = (regs [(1, 5#32), (2, 5#32)]).readReg 2 ∧
    (regs [(1, 5#32), (2, 6#32)]).readReg 1 ≠ (regs [(1, 5#32), (2, 6#32)]).readReg 2 := by decide

theorem witness_JumpsGoToTheirTargets :
    (regs [(2, 0x00030409#32)]).status = .running ∧ ((regs [(2, 0x00030409#32)]).readReg 2).toNat % 4 ≠ 0 ∧
    (regs [(2, 0x00030409#32)]).readReg 2 ≠ (regs [(2, 0x00030409#32)]).params.endPc := by decide

/-- Also of OnlyStoresChangeMemory, OnlyMultiplyAndDivideWriteHiLo and SequentialUnlessControlTransfer. -/
theorem witness_OnlyTheDestinationRegisterChanges :
    exec (.add 1 2 3) (two 5#32 7#32) =
      .next ((two 5#32 7#32).writeReg 1 12#32).advance ∧ destination (.add 1 2 3) ≠ some 2#5 :=
  ⟨by rfl, by decide⟩

/-- The remaining hypotheses of the same three. -/
theorem witness_kinds :
    isStore (Instr.add 1 2 3).mnemonic = false ∧ writesHiLo (Instr.add 1 2 3).mnemonic = false ∧
    isControlTransfer (Instr.add 1 2 3).mnemonic = false ∧
    ((two 5#32 7#32).writeReg 1 12#32).advance.status = .running := by decide

end Sys2Proof.Tests
end

section
/-! SUPPORT. The decoder against the encoder: a word has one row at most, a row's instruction and its word determine each
other, so `decode` answers `i` exactly at `encode i`. -/

namespace Sys2Proof

/-- No two rows of the table agree where both their masks look. -/
theorem Mnemonic.eq_of_rows_agree :
    ∀ m ∈ Mnemonic.all, ∀ n ∈ Mnemonic.all,
      m.row.bits &&& n.row.mask = n.row.bits &&& m.row.mask → m = n := by
  decide

/-- A word is admitted by one row at most (30_encoding R70): both rows' bits are the word's own. -/
theorem Mnemonic.admits_unique {m n : Mnemonic} {w : Word} (hm : m.admits w = true)
    (hn : n.admits w = true) : m = n := by
  rw [Mnemonic.admits, beq_iff_eq] at hm hn
  refine Mnemonic.eq_of_rows_agree m m.mem_all n n.mem_all ?_
  rw [← hm, ← hn]
  ac_rfl

/-- A word that a row admits decodes to the row's instruction. -/
theorem decode_of_admits {m : Mnemonic} {w : Word} (h : m.admits w = true) :
    decode w = .ok (m.instr w) := by
  unfold decode
  cases hf : Mnemonic.all.find? (fun n => n.admits w) with
  | none => exact absurd h (List.find?_eq_none.1 hf m m.mem_all)
  | some n =>
    have hn : n.admits w = true := List.find?_some (p := fun n : Mnemonic => n.admits w) hf
    obtain rfl : n = m := Mnemonic.admits_unique hn h
    rfl

/-- A word that no row admits is reserved. -/
theorem decode_of_not_admits {w : Word} (h : ∀ m : Mnemonic, m.admits w = false) :
    decode w = .error (.reserved w) := by
  have hf : Mnemonic.all.find? (fun n => n.admits w) = none :=
    List.find?_eq_none.2 fun m _ => by simp [h m]
  unfold decode
  rw [hf]

/-- The operands a row reads from the word of an instruction of that row are the instruction's. -/
theorem instr_encode (i : Instr) : i.mnemonic.instr (encode i) = i := by
  cases i <;> simp [Instr.mnemonic, Mnemonic.instr, encode]

/-- Decoding undoes encoding. -/
theorem decode_encode (i : Instr) : decode (encode i) = .ok i := by
  rw [decode_of_admits (Laws.encodingInRow_all i), instr_encode]

/-- The word of the instruction a row reads from a word of the row is that word: the fields that are no operands are fixed
by the row (30_encoding R73). -/
theorem encode_instr_of_admits {m : Mnemonic} {w : Word} (h : m.admits w = true) :
    encode (m.instr w) = w := by
  rw [admits_iff_fields] at h
  cases m with
  | add | addu | sub | subu | and | or | xor | nor | slt | sltu | sllv | srlv | srav | sll | srl | sra
  | mult | multu | div | divu | mfhi | mflo | jr =>
    simp [Mnemonic.row] at h
    obtain ⟨hop, hrest⟩ := h
    simpa [encode, Mnemonic.instr, hrest] using encodeR_fields hop
  | addi | addiu | andi | ori | xori | lb | lh | lw | lbu | lhu | sb | sh | sw | beq | bne | lui
  | blez | bgtz | bltz | bgez | bltzal | bgezal =>
    simp [Mnemonic.row] at h
    simpa [encode, Mnemonic.instr, h] using encodeI_fields w
  | j | jal =>
    simp [Mnemonic.row] at h
    simpa [encode, Mnemonic.instr, h] using encodeJ_fields w

/-- A word that is no instruction's is reserved. -/
theorem decode_of_forall_encode_ne {w : Word} (h : ∀ i : Instr, encode i ≠ w) :
    decode w = .error (.reserved w) :=
  decode_of_not_admits fun m =>
    Bool.eq_false_iff.2 fun hm => h (m.instr w) (encode_instr_of_admits hm)

end Sys2Proof
end

section
/-! SUPPORT. What no instruction and no step changes: the parameters of the run; and memory, but for the stores. -/

namespace Sys2Proof.Machine

/-- A checked write changes no parameter. -/
theorem memWrite_params {s t : State} {w : Width} {a : Word} {v : BitVec w.bits}
    (h : s.memWrite w a v = .ok t) : t.params = s.params := by
  rcases memWrite_cases s w a v with ⟨r, -, e⟩ | ⟨-, e⟩
  · cases e.symm.trans h
  · cases e.symm.trans h
    rfl

/-- Executing an instruction changes no parameter and, unless it is a store, not the memory. -/
theorem exec_keeps {i : Instr} {s t : State} (h : exec i s = .next t) :
    t.params = s.params ∧ (isStore i.mnemonic = false → t.mem = s.mem) := by
  rcases exec_cases i s with ⟨_, _, -, e⟩ | ⟨_, _, _, -, e⟩ | ⟨_, _, _, _, u, -, hst, hw, e⟩ |
    ⟨_, -, e⟩ | ⟨_, -, -, e⟩ | ⟨-, e⟩ | ⟨_, _, _, _, _, -, -, e⟩ <;> cases e.symm.trans h
  case inr.inr.inl =>
    have hparams : u.params = s.params := memWrite_params hw
    exact ⟨hparams, fun hi => absurd (hst.symm.trans hi) nofun⟩
  all_goals exact ⟨rfl, fun _ => rfl⟩

/-- Only a Running state has a next state (60_exceptions R210, R225). -/
theorem running_of_step {s t : State} (h : step s = .next t) : s.status = .running := by
  unfold step at h
  cases hs : s.status with
  | running => rfl
  | ended | faulted _ _ _ =>
    rw [hs] at h
    cases h

end Sys2Proof.Machine
end

section
/-! SUPPORT. A list of refused regions can say every MEM_VALID predicate. -/

namespace Sys2Proof.Machine

/-- `MEM_VALID` accepts an address that no refused region holds. -/
theorem memValid_iff {p : Params} {a : Nat} :
    Params.memValid p a = true ↔ ∀ r ∈ p.refused, ¬(r.base ≤ a ∧ a < r.base + r.size) := by
  simp only [Params.memValid, List.all_eq_true, ← Bool.decide_and, ← decide_not, decide_eq_true_eq]

/-- The addresses below `n` that `valid` refuses, as regions of one byte. -/
def refusedBelow (valid : Nat → Bool) (n : Nat) : List Region :=
  ((List.range n).filter fun a => !valid a).map fun a => ⟨a, 1⟩

theorem mem_refusedBelow {valid : Nat → Bool} {n : Nat} {r : Region} :
    r ∈ refusedBelow valid n ↔ r.base < n ∧ valid r.base = false ∧ r.size = 1 := by
  simp only [refusedBelow, List.mem_map, List.mem_filter, List.mem_range, Bool.not_eq_true', and_assoc]
  constructor
  · rintro ⟨a, ha, hv, rfl⟩
    exact ⟨ha, hv, rfl⟩
  · rintro ⟨ha, hv, hsize⟩
    exact ⟨r.base, ha, hv, by rw [← hsize]⟩

/-- Below `n`, refusing those regions is refusing what `valid` refuses. -/
theorem memValid_refusedBelow (p : Params) (valid : Nat → Bool) {n a : Nat} (ha : a < n) :
    Params.memValid { p with refused := refusedBelow valid n } a = valid a := by
  rw [Bool.eq_iff_iff, memValid_iff]
  constructor
  · intro h
    by_contra hv
    exact h ⟨a, 1⟩ (mem_refusedBelow.2 ⟨ha, Bool.eq_false_iff.2 hv, rfl⟩) ⟨le_rfl, Nat.lt_succ_self a⟩
  · rintro hv r hr ⟨hle, hlt⟩
    obtain ⟨-, hinv, hsize⟩ := mem_refusedBelow.1 hr
    obtain rfl : a = r.base := by omega
    exact absurd (hv.symm.trans hinv) nofun

end Sys2Proof.Machine
end

section
/-! SUPPORT. The fetch: what it raises, and what it gives when a word's bytes stand at an aligned, accepted `pc`. -/

namespace Sys2Proof.Machine

/-- A fetch raises what its checks raise (60_exceptions R209). -/
theorem fetchInstr_of_accessCheck {s : State} {r : Raise}
    (h : s.accessCheck .fetch .word s.pc = some r) : s.fetchInstr = .error r := by
  simp only [State.fetchInstr, State.memRead, h]

/-- The word `w` stands at `pc` in the byte order in force, where a fetch passes its checks (20_memory R45, R46). -/
structure WordAtPc (s : State) (w : Word) : Prop where
  aligned : s.pc.toNat % 4 = 0
  accepted : ∀ j : Nat, j < 4 → Params.memValid s.params (s.pc.toNat + j) = true
  bytes : ∀ j : Nat, j < 4 → s.mem.read (s.pc.toNat + j) = byteOf s.params.endian .word w j

/-- The fetch is then the decoding of the word. -/
theorem WordAtPc.fetchInstr_eq {s : State} {w : Word} (h : WordAtPc s w) :
    s.fetchInstr = decodeOrRaise w := by
  have hc : s.accessCheck .fetch .word s.pc = none :=
    accessCheck_none.2 ⟨h.aligned, allValid_iff.2 h.accepted⟩
  simp only [State.fetchInstr, memRead_of_bytes hc h.bytes]

/-- A step then runs the instruction the word decodes to. -/
theorem WordAtPc.step_eq {s : State} {w : Word} {i : Instr} (h : WordAtPc s w)
    (hs : s.status = .running) (hp : s.pc ≠ s.params.endPc) (hd : decode w = .ok i) :
    step s = exec i s :=
  step_of_fetch hs hp (by rw [h.fetchInstr_eq, decodeOrRaise, hd])

/-- The bytes of a word placed at an aligned address stand there. -/
theorem read_placeWord {s : State} {a v : Word} {j : Nat} (hm : s.wf = true)
    (ha : a.toNat % 4 = 0) (hj : j < 4) :
    (s.placeWord a v).mem.read (a.toNat + j) = byteOf s.params.endian .word v j := by
  rw [State.placeWord_mem, read_writeValue hm ha, if_pos (by simp only [Width.bytes]; omega),
    Nat.add_sub_cancel_left]

/-- Placing a whole word for the next fetch. -/
theorem withFetchWord_toNat (s : State) (w : Word) :
    s.withFetchWord 32 w.toNat = s.placeWord s.pc w := by
  rw [State.withFetchWord, Nat.mod_eq_of_lt w.isLt, BitVec.ofNat_toNat, BitVec.setWidth_eq]

end Sys2Proof.Machine
end

section
/-! The statements of 00_scope. -/

namespace Sys2Proof.Machine

/-- Settles O13, by what a step can do: end the run, take the fetch's fault, or execute. -/
theorem stepKeepsParameters : Obligations.StepKeepsParameters := by
  intro s t h
  rcases step_cases (running_of_step h) with ⟨-, e⟩ | ⟨r, -, -, e⟩ | ⟨i, -, -, e⟩
  · cases e.symm.trans h
    rfl
  · cases e.symm.trans h
    rfl
  · exact (exec_keeps (e.symm.trans h)).1

/-- Settles O16: refuse each refused address by a region of its own. -/
theorem everyMemValidIsExpressible : Obligations.EveryMemValidIsExpressible :=
  fun p valid => ⟨refusedBelow valid (2 ^ 32), fun _ ha => memValid_refusedBelow p valid ha⟩

/-- Settles O22: the checks come in order, and a word that encodes no instruction does not decode. -/
theorem fetchFaultsInOrder : Obligations.FetchFaultsInOrder := by
  intro s hs hp
  refine ⟨fun hmis => ?_, fun hal hrefused => ?_, fun w hal hacc hbytes hw => ?_⟩
  · exact step_of_fetch_raise (r := ⟨.addressError .fetch, some s.pc⟩) hs hp
      (fetchInstr_of_accessCheck (accessCheck_some.2 (.inl ⟨hmis, rfl⟩)))
  · exact step_of_fetch_raise (r := ⟨.busError .fetch, some s.pc⟩) hs hp
      (fetchInstr_of_accessCheck
        (accessCheck_some.2 (.inr ⟨hal, allValid_false_iff.2 hrefused, rfl⟩)))
  · refine step_of_fetch_raise (r := ⟨.reservedInstruction, some w⟩) hs hp ?_
    rw [WordAtPc.fetchInstr_eq ⟨hal, hacc, hbytes⟩, decodeOrRaise, decode_of_forall_encode_ne hw]

/-- Settles O23: the word stands at `pc`, so the fetch decodes it. -/
theorem stepRunsTheDecodedInstruction : Obligations.StepRunsTheDecodedInstruction :=
  fun _ _ _ hs hp hal hacc hbytes hd => WordAtPc.step_eq ⟨hal, hacc, hbytes⟩ hs hp hd

/-- Settles O24: the placed word's bytes stand at `pc`, and it decodes to the instruction it encodes. -/
theorem placedInstructionRuns : Obligations.PlacedInstructionRuns := by
  intro s i hwf hs hp hal hacc
  rw [withFetchWord_toNat]
  have hword : WordAtPc (s.placeWord s.pc (encode i)) (encode i) :=
    ⟨hal, hacc, fun _ hj => read_placeWord hwf hal hj⟩
  exact hword.step_eq hs hp (decode_encode i)

/-- Settles O54: of all an instruction can do, only the store's case touches memory. -/
theorem onlyStoresChangeMemory : Obligations.OnlyStoresChangeMemory := by
  intro i s t hi h a
  rw [(exec_keeps h).2 hi]

end Sys2Proof.Machine
end

section
/-! SUPPORT. Everything an executed instruction can do to the state, as a relation with one constructor per effect, so that
a frame is a case analysis over named effects. The relation keeps of exec_cases what frames need. -/

namespace Sys2Proof.Machine

/-- `Effect i s t`: the state `t` is what one of the effects open to the instruction `i` makes of `s`. -/
inductive Effect (i : Instr) (s : State) : State → Prop where
  | writeDestination {d : RegIdx} (v : Word) (hd : destination i = some d) :
      Effect i s (s.writeReg d v).advance
  | writeHiLo (h l : Word) (n : Nat) (hw : writesHiLo i.mnemonic = true) :
      Effect i s ({ s with hi := h, lo := l, draws := n } : State).advance
  | store {m : Memory} (hst : isStore i.mnemonic = true) (hm : s.mem.wf = true → m.wf = true) :
      Effect i s ({ s with mem := m } : State).advance
  | jump (p : Word) (hc : isControlTransfer i.mnemonic = true) : Effect i s (s.setPc p)
  | link (p : Word) (hc : isControlTransfer i.mnemonic = true) (hd : destination i = some linkReg) :
      Effect i s ((s.writeReg linkReg s.nextPc).setPc p)
  | fault (r : Raise) : Effect i s (s.takeFault r)

/-- A checked write that succeeds changes the memory only, and keeps its canonical form. -/
theorem memWrite_ok {s t : State} {w : Width} {a : Word} {v : BitVec w.bits}
    (h : s.memWrite w a v = .ok t) :
    ∃ m : Memory, t = { s with mem := m } ∧ (s.mem.wf = true → m.wf = true) := by
  rcases memWrite_cases s w a v with ⟨r, -, e⟩ | ⟨-, e⟩
  · cases e.symm.trans h
  · cases e.symm.trans h
    exact ⟨_, rfl, fun hs => memWrite_wf hs h⟩

/-- An instruction that answers `t` has one of its effects. -/
theorem exec_effect {i : Instr} {s t : State} (h : exec i s = .next t) : Effect i s t := by
  rcases exec_cases i s with ⟨d, v, hd, e⟩ | ⟨high, low, n, hw, e⟩ | ⟨w, rs, imm, v, u, -, hst, hu, e⟩ |
    ⟨p, hc, e⟩ | ⟨p, hc, hd, e⟩ | ⟨-, e⟩ | ⟨k, w, rs, imm, r, -, -, e⟩ <;> cases e.symm.trans h
  · exact .writeDestination v hd
  · exact .writeHiLo high low n hw
  · obtain ⟨m, rfl, hm⟩ := memWrite_ok hu
    exact .store hst hm
  · exact .jump p hc
  · exact .link p hc hd
  · exact .fault _
  · exact .fault r

/-- The multiplies and divides have no destination register. -/
theorem destination_of_writesHiLo {i : Instr} (h : writesHiLo i.mnemonic = true) :
    destination i = none := by
  cases i with
  | mult _ _ | multu _ _ | div _ _ | divu _ _ => rfl
  | _ => cases h

/-- The stores have no destination register. -/
theorem destination_of_isStore {i : Instr} (h : isStore i.mnemonic = true) : destination i = none := by
  cases i with
  | sb _ _ _ | sh _ _ _ | sw _ _ _ => rfl
  | _ => cases h

/-- A control transfer writes no register but the link register (30_encoding R69). -/
theorem destination_of_isControlTransfer {i : Instr} (h : isControlTransfer i.mnemonic = true) :
    destination i = none ∨ destination i = some linkReg := by
  cases i with
  | beq _ _ _ | bne _ _ _ | blez _ _ | bgtz _ _ | bltz _ _ | bgez _ _ | j _ | jr _ => exact .inl rfl
  | bltzal _ _ | bgezal _ _ | jal _ => exact .inr rfl
  | _ => cases h

/-- A register other than the one written reads as before. -/
theorem State.readReg_writeReg_of_ne (s : State) {d r : RegIdx} (v : Word) (h : r ≠ d) :
    (s.writeReg d v).readReg r = s.readReg r := by
  rw [State.readReg_writeReg, if_neg fun hr => h hr.1]

/-- A write to register 0 is discarded (10_state R22). -/
theorem State.writeReg_zero (s : State) (v : Word) : s.writeReg 0#5 v = s := rfl

/-- A state that took a fault is not Running. -/
theorem State.takeFault_status_ne_running (s : State) (r : Raise) : (s.takeFault r).status ≠ .running := nofun

/-- Executing an instruction keeps the canonical form of memory. -/
theorem exec_wf {i : Instr} {s t : State} (hs : s.wf = true) (h : exec i s = .next t) :
    t.wf = true := by
  cases exec_effect h with
  | store _ hm => exact hm hs
  | writeDestination | writeHiLo | jump | link | fault => exact hs

end Sys2Proof.Machine
end

section
/-! SUPPORT. The floating-point registers: no operation reads them, so replacing them commutes with every operation. -/

namespace Sys2Proof.Machine

/-- The state with other floating-point registers. -/
def State.withFpr (f : Vector Word 32) (s : State) : State :=
  { s with fpr := f }

@[simp] theorem State.withFpr_fpr (f : Vector Word 32) (s : State) : (s.withFpr f).fpr = f := rfl

/-- The same outcome, a next state with other floating-point registers. -/
def outcomeWithFpr (f : Vector Word 32) (x : Result) : Result :=
  match x with
  | .next t => .next (t.withFpr f)
  | .fault r => .fault r
  | .refused r => .refused r

theorem writeUnlessOverflow_withFpr (f : Vector Word 32) (s : State) (d : RegIdx) (b : Bool) (v : Word) :
    (s.withFpr f).writeUnlessOverflow d b v = outcomeWithFpr f (s.writeUnlessOverflow d b v) := by
  cases b <;> rfl

/-- How a division ends: with two draws, or with a quotient and a remainder. -/
theorem divide_withFpr (f : Vector Word 32) (s : State) (b : Bool) (h l : Word) :
    (if b then .next (s.withFpr f).drawHiLo.advance
      else .next ((s.withFpr f).writeHiLo h l).advance : Result) =
    outcomeWithFpr f (if b then .next s.drawHiLo.advance else .next (s.writeHiLo h l).advance) := by
  cases b <;> rfl

theorem load_withFpr (f : Vector Word 32) (s : State) (w : Width) (ext : BitVec w.bits → Word)
    (rt : RegIdx) (imm : Imm16) (rs : RegIdx) :
    (s.withFpr f).load w ext rt imm rs = outcomeWithFpr f (s.load w ext rt imm rs) := by
  have hread : (s.withFpr f).memRead .load w ((s.withFpr f).effectiveAddress rs imm) =
      s.memRead .load w (s.effectiveAddress rs imm) := rfl
  unfold State.load
  rw [hread]
  cases s.memRead .load w (s.effectiveAddress rs imm) <;> rfl

theorem store_withFpr (f : Vector Word 32) (s : State) (w : Width) (v : BitVec w.bits) (imm : Imm16)
    (rs : RegIdx) : (s.withFpr f).store w v imm rs = outcomeWithFpr f (s.store w v imm rs) := by
  cases hc : s.accessCheck .store w (s.effectiveAddress rs imm) with
  | some r =>
    have hc' : (s.withFpr f).accessCheck .store w ((s.withFpr f).effectiveAddress rs imm) = some r := hc
    rw [store_faults hc, store_faults hc']
    rfl
  | none =>
    have hc' : (s.withFpr f).accessCheck .store w ((s.withFpr f).effectiveAddress rs imm) = none := hc
    rw [store_next hc, store_next hc']
    rfl

/-- No instruction reads the floating-point registers. -/
theorem exec_withFpr (f : Vector Word 32) (i : Instr) (s : State) :
    exec i (s.withFpr f) = outcomeWithFpr f (exec i s) := by
  cases i with
  | add _ _ _ | sub _ _ _ | addi _ _ _ => exact writeUnlessOverflow_withFpr f s _ _ _
  | div _ _ | divu _ _ => exact divide_withFpr f s _ _ _
  | lb _ _ _ | lh _ _ _ | lw _ _ _ | lbu _ _ _ | lhu _ _ _ => exact load_withFpr f s _ _ _ _ _
  | sb _ _ _ | sh _ _ _ | sw _ _ _ => exact store_withFpr f s _ _ _ _
  | _ => rfl

/-- No step reads the floating-point registers. -/
theorem step_withFpr (f : Vector Word 32) (s : State) :
    step (s.withFpr f) = outcomeWithFpr f (step s) := by
  cases hs : s.status with
  | running =>
    have hs' : (s.withFpr f).status = .running := hs
    rcases step_cases hs with ⟨hp, e⟩ | ⟨r, hp, hf, e⟩ | ⟨i, hp, hf, e⟩
    · rw [e, step, hs']
      exact if_pos hp
    · rw [e, step_of_fetch_raise (s := s.withFpr f) hs' hp hf]
      rfl
    · rw [e, step_of_fetch (s := s.withFpr f) hs' hp hf, exec_withFpr]
  | ended | faulted _ _ _ =>
    have hs' : (s.withFpr f).status = s.status := rfl
    simp only [step, hs', hs, outcomeWithFpr]

end Sys2Proof.Machine
end

section
/-! SUPPORT. The launch: what the registers and the memory image read as. -/

namespace Sys2Proof.Machine

/-- Register `n + 1` is the register file's place `n` (10_state R21). -/
theorem readReg_succ (s : State) {n : Nat} (h : n < 31) :
    s.readReg (BitVec.ofNat 5 (n + 1)) = s.gpr[n] := by
  have hn : (BitVec.ofNat 5 (n + 1)).toNat = n + 1 := by
    rw [BitVec.toNat_ofNat, Nat.mod_eq_of_lt (by omega)]
  have hne : BitVec.ofNat 5 (n + 1) ≠ 0#5 := fun e => by simp [e] at hn
  simp [State.readReg, hne, hn, h]

theorem imageInSpace_iff {image : List Host.Cell} :
    imageInSpace image = true ↔ ∀ c ∈ image, c.1 < 2 ^ 32 := by
  simp [imageInSpace]

namespace Memory

/-- Writing cells leaves the bytes at other addresses. -/
theorem read_writeCells_of_not_mem {m : Memory} {cs : List Host.Cell} {a : Nat} (hm : wf m = true)
    (hcs : ∀ c ∈ cs, c.1 < 2 ^ 32) (ha : a ∉ cs.map Prod.fst) :
    read (writeCells m cs) a = read m a := by
  induction cs generalizing m with
  | nil => rfl
  | cons d cs ih =>
    obtain ⟨k, v⟩ := d
    obtain ⟨hk, hcs⟩ := List.forall_mem_cons.1 hcs
    obtain ⟨hak, ha⟩ := not_or.1 (mt List.mem_cons.2 ha)
    rw [writeCells, ih (write_wf hm hk) hcs ha, read_write hm, if_neg hak]

/-- Cells with distinct addresses read as they were written. -/
theorem read_writeCells_of_mem {m : Memory} {cs : List Host.Cell} {c : Host.Cell} (hm : wf m = true)
    (hcs : ∀ c ∈ cs, c.1 < 2 ^ 32) (hnd : (cs.map Prod.fst).Nodup) (hc : c ∈ cs) :
    read (writeCells m cs) c.1 = c.2 := by
  induction cs generalizing m with
  | nil => cases hc
  | cons d cs ih =>
    obtain ⟨k, v⟩ := d
    obtain ⟨hk, hcs⟩ := List.forall_mem_cons.1 hcs
    obtain ⟨hknot, hnd⟩ := List.nodup_cons.1 hnd
    have hm' : wf (write m k v) = true := write_wf hm hk
    rcases List.mem_cons.1 hc with rfl | hc
    · rw [writeCells, read_writeCells_of_not_mem hm' hcs hknot, read_write hm, if_pos rfl]
    · exact ih hm' hcs hnd hc

/-- The cells that hold `f` at every address below `n`. -/
def cellsBelow (f : Nat → Byte) (n : Nat) : List Host.Cell :=
  (List.range n).map fun a => (a, f a)

theorem mem_cellsBelow {f : Nat → Byte} {n : Nat} {c : Host.Cell} :
    c ∈ cellsBelow f n ↔ c.1 < n ∧ c.2 = f c.1 := by
  simp only [cellsBelow, List.mem_map, List.mem_range]
  constructor
  · rintro ⟨a, ha, rfl⟩
    exact ⟨ha, rfl⟩
  · rintro ⟨hlt, hv⟩
    exact ⟨c.1, hlt, by rw [← hv]⟩

theorem cellsBelow_addresses (f : Nat → Byte) (n : Nat) :
    (cellsBelow f n).map Prod.fst = List.range n := by
  simp [cellsBelow, Function.comp_def]

/-- Some canonical memory reads as `f` below `n`. -/
theorem exists_wf_read_eq (f : Nat → Byte) {n : Nat} (hn : n ≤ 2 ^ 32) :
    ∃ m : Memory, m.wf = true ∧ ∀ a : Nat, a < n → m.read a = f a := by
  have hin : ∀ c ∈ cellsBelow f n, c.1 < 2 ^ 32 := fun c hc =>
    Nat.lt_of_lt_of_le (mem_cellsBelow.1 hc).1 hn
  have hnd : ((cellsBelow f n).map Prod.fst).Nodup := by
    rw [cellsBelow_addresses]
    exact List.nodup_range
  exact ⟨writeCells [] (cellsBelow f n), writeCells_wf rfl hin, fun a ha =>
    read_writeCells_of_mem (c := (a, f a)) rfl hin hnd (mem_cellsBelow.2 ⟨ha, rfl⟩)⟩

end Memory

end Sys2Proof.Machine
end

section
/-! The statements of 10_state. -/

namespace Sys2Proof.Machine

/-- Settles O12, by what a step can do; only an executed store touches memory, and it keeps the form. -/
theorem stepKeepsInvariant : Obligations.StepKeepsInvariant := by
  intro s t hs h
  rcases step_cases (running_of_step h) with ⟨-, e⟩ | ⟨r, -, -, e⟩ | ⟨i, -, -, e⟩
  · cases e.symm.trans h
    exact hs
  · cases e.symm.trans h
    exact hs
  · exact exec_wf hs (e.symm.trans h)

/-- Settles O14: replacing the floating-point registers commutes with a step, and replacing them by themselves shows that
the step leaves them. -/
theorem floatingPointRegistersAreInert : Obligations.FloatingPointRegistersAreInert := by
  intro s f
  refine ⟨fun t h => ?_, ?_⟩
  · have hself : step s = outcomeWithFpr s.fpr (step s) := step_withFpr s.fpr s
    rw [h] at hself
    have ht : t = t.withFpr s.fpr := Host.Outcome.next.inj hself
    exact (congrArg State.fpr ht).trans (State.withFpr_fpr s.fpr t)
  · rw [show ({ s with fpr := f } : State) = s.withFpr f from rfl, step_withFpr]
    cases step s <;> rfl

/-- Settles O9: the registers by their places, the image by read after write of its distinct cells. -/
theorem launchState : Obligations.LaunchState :=
  fun l => ⟨rfl, rfl, rfl, fun _ hn => readReg_succ (State.launch l) hn, rfl, rfl, rfl, rfl,
    fun hin hnd _ hc => Memory.read_writeCells_of_mem rfl (imageInSpace_iff.1 hin) hnd hc⟩

/-- Settles O11: the image's cells are written in turn to the empty memory. -/
theorem wellFormedLaunchMeetsInvariant : Obligations.WellFormedLaunchMeetsInvariant := by
  intro l h
  obtain ⟨-, hin⟩ := Bool.and_eq_true_iff.1 h
  exact Memory.writeCells_wf rfl (imageInSpace_iff.1 hin)

/-- Settles O15: write the byte of every address. -/
theorem everyMemoryImageIsAMemory : Obligations.EveryMemoryImageIsAMemory :=
  fun f => Memory.exists_wf_read_eq f le_rfl

/-- Settles O25: the only effect with destination `$0` and without a fault is a register write, and it is discarded. -/
theorem zeroWordAndZeroDestinationDoNothing : Obligations.ZeroWordAndZeroDestinationDoNothing := by
  refine ⟨decode_encode (.sll 0 0 0), fun i s t hdst _ h ht => ?_⟩
  have hlink : some 0#5 ≠ some linkReg := by decide
  cases exec_effect h with
  | writeDestination v hd =>
    cases hd.symm.trans hdst
    rw [State.writeReg_zero]
    rfl
  | writeHiLo _ _ _ hw => cases (destination_of_writesHiLo hw).symm.trans hdst
  | store hst _ => cases (destination_of_isStore hst).symm.trans hdst
  | jump _ hc =>
    rcases destination_of_isControlTransfer hc with hd | hd
    · cases hd.symm.trans hdst
    · exact absurd (hdst.symm.trans hd) hlink
  | link _ _ hd => exact absurd (hdst.symm.trans hd) hlink
  | fault r => exact absurd ht (State.takeFault_status_ne_running s r)

/-- Settles O53: the effects that write a register write the destination. -/
theorem onlyTheDestinationRegisterChanges : Obligations.OnlyTheDestinationRegisterChanges := by
  intro i s t r h hr
  cases exec_effect h with
  | writeDestination v hd => exact State.readReg_writeReg_of_ne s v fun e => hr (e ▸ hd)
  | link _ _ hd => exact State.readReg_writeReg_of_ne s s.nextPc fun e => hr (e ▸ hd)
  | writeHiLo | store | jump | fault => rfl

/-- Settles O55: one effect alone touches `HI`, `LO` and the counter of draws. -/
theorem onlyMultiplyAndDivideWriteHiLo : Obligations.OnlyMultiplyAndDivideWriteHiLo := by
  intro i s t hi h
  cases exec_effect h with
  | writeHiLo _ _ _ hw => exact absurd (hw.symm.trans hi) nofun
  | writeDestination | store | jump | link | fault => exact ⟨⟨rfl, rfl⟩, rfl⟩

/-- Settles O56: every effect but the two of a control transfer and the fault advances. -/
theorem sequentialUnlessControlTransfer : Obligations.SequentialUnlessControlTransfer := by
  intro i s t hi _ h ht
  cases exec_effect h with
  | jump _ hc | link _ hc _ => exact absurd (hc.symm.trans hi) nofun
  | fault r => exact absurd ht (State.takeFault_status_ne_running s r)
  | writeDestination | writeHiLo | store => rfl

/-- Settles O10: the launch of Launch.reset, whose image is empty. -/
theorem resetIsAWellFormedLaunch : Obligations.ResetIsAWellFormedLaunch := by
  have hl : Launch.reset.wf = true := by decide
  exact ⟨State.launch_reset.symm, hl, wellFormedLaunchMeetsInvariant Launch.reset hl,
    State.readReg_zero State.reset, by decide, rfl⟩

end Sys2Proof.Machine
end

section
/-! SUPPORT. The bytes of a value counted as 20_memory R42 counts them, those of the last half of a word, and those of an
instruction. -/

namespace Sys2Proof.Machine

/-- A slice of a slice. -/
theorem extractLsb'_extractLsb'_add {n : Nat} (x : BitVec n) {i j len m : Nat} (h : i + len ≤ m) :
    (x.extractLsb' j m).extractLsb' i len = x.extractLsb' (j + i) len := by
  apply BitVec.eq_of_getLsbD_eq
  intro k hk
  simp only [BitVec.getLsbD_extractLsb', hk, show i + k < m by omega, decide_true, Bool.true_and,
    Nat.add_assoc]

/-- In the big order byte `i` is counted down from the top byte. -/
theorem byteOf_big (w : Width) (v : BitVec w.bits) (i : Nat) :
    byteOf .big w v i = v.extractLsb' (8 * (w.bytes - 1 - i)) 8 := by
  rw [byteOf, Nat.sub_right_comm]

/-- A byte has one byte, itself. -/
theorem byteOf_byte (e : Endian) (b : Byte) : byteOf e .byte b 0 = b := by
  cases e <;> exact BitVec.extractLsb'_eq_self

/-- The halfword at the last two addresses of a word (20_memory R42). -/
def lastHalf (e : Endian) (v : Word) : BitVec 16 :=
  match e with
  | .big => v.extractLsb' 0 16
  | .little => v.extractLsb' 16 16

/-- Its bytes are the word's from byte 2 on. -/
theorem byteOf_lastHalf (e : Endian) (v : Word) {i : Nat} (hi : i < 2) :
    byteOf e .half (lastHalf e v) i = byteOf e .word v (2 + i) := by
  cases e with
  | big =>
    show (v.extractLsb' 0 16).extractLsb' (8 * (2 - i - 1)) 8 = v.extractLsb' (8 * (4 - (2 + i) - 1)) 8
    rw [extractLsb'_extractLsb'_add v (by omega), show 0 + 8 * (2 - i - 1) = 8 * (4 - (2 + i) - 1) by omega]
  | little =>
    show (v.extractLsb' 16 16).extractLsb' (8 * i) 8 = v.extractLsb' (8 * (2 + i)) 8
    rw [extractLsb'_extractLsb'_add v (by omega), show 16 + 8 * i = 8 * (2 + i) by omega]

/-- The bytes of a word that decodes, before any others, decode to its instruction. -/
theorem decodeBytes_splitBytes {e : Endian} {w : Word} {i : Instr} (rest : List Byte)
    (h : decode w = .ok i) : decodeBytes e (splitBytes e .word w ++ rest) = .ok (i, rest) := by
  have hjoin : joinBytes e .word (fun j => (splitBytes e .word w).getD j 0) = w :=
    (joinBytes_congr (splitBytes_getD e .word w)).trans (joinBytes_byteOf e .word w)
  have hsplit : splitBytes e .word w =
      [byteOf e .word w 0, byteOf e .word w 1, byteOf e .word w 2, byteOf e .word w 3] := rfl
  rw [hsplit] at hjoin ⊢
  simp only [decodeBytes, List.cons_append, List.nil_append, hjoin, h]

end Sys2Proof.Machine
end

section
/-! SUPPORT. The three answers of the checks of an access, and what a read, a write, a load and a store do on each; what an
instruction can do to the run status. -/

namespace Sys2Proof.Machine

variable {s : State} {w : Width} {a : Word}

/-- A misaligned access raises AddressError (20_memory R44). -/
theorem accessCheck_misaligned (k : AccessKind) (hmis : a.toNat % w.bytes ≠ 0) :
    s.accessCheck k w a = some ⟨.addressError k, some a⟩ :=
  accessCheck_some.2 (.inl ⟨hmis, rfl⟩)

/-- An aligned access of which `MEM_VALID` refuses a byte raises BusError (20_memory R41, R42). -/
theorem accessCheck_refused (k : AccessKind) (hal : a.toNat % w.bytes = 0)
    (href : ∃ j : Nat, j < w.bytes ∧ Params.memValid s.params (a.toNat + j) = false) :
    s.accessCheck k w a = some ⟨.busError k, some a⟩ :=
  accessCheck_some.2 (.inr ⟨hal, allValid_false_iff.2 href, rfl⟩)

/-- An aligned access of which `MEM_VALID` accepts every byte raises nothing. -/
theorem accessCheck_accepted (k : AccessKind) (hal : a.toNat % w.bytes = 0)
    (hacc : ∀ j : Nat, j < w.bytes → Params.memValid s.params (a.toNat + j) = true) :
    s.accessCheck k w a = none :=
  accessCheck_none.2 ⟨hal, allValid_iff.2 hacc⟩

theorem memRead_of_check_some {k : AccessKind} {r : Raise} (h : s.accessCheck k w a = some r) :
    s.memRead k w a = .error r := by
  rw [State.memRead, h]

theorem memRead_of_check_none {k : AccessKind} (h : s.accessCheck k w a = none) :
    s.memRead k w a = .ok (joinBytes s.params.endian w fun i => s.mem.read (a.toNat + i)) := by
  rw [State.memRead, h]

theorem memWrite_of_check_some {v : BitVec w.bits} {r : Raise}
    (h : s.accessCheck .store w a = some r) : s.memWrite w a v = .error r := by
  rw [State.memWrite, h]

theorem memWrite_of_check_none (v : BitVec w.bits) (h : s.accessCheck .store w a = none) :
    s.memWrite w a v =
      .ok { s with mem := s.mem.writeBytes a.toNat (splitBytes s.params.endian w v) } := by
  rw [State.memWrite, h]

/-- A load or store whose access raises takes that fault and does nothing else. -/
theorem exec_faults_of_check_some {i : Instr} {k : AccessKind} {rs : RegIdx} {imm : Imm16} {r : Raise}
    (hi : memoryAccess i = some (k, w, rs, imm))
    (hr : s.accessCheck k w (s.effectiveAddress rs imm) = some r) :
    Faults s (exec i s) r.cause r.info := by
  cases i with
  | lw _ _ _ | lh _ _ _ | lhu _ _ _ | lb _ _ _ | lbu _ _ _ =>
    cases hi
    exact load_faults hr
  | sw _ _ _ | sh _ _ _ | sb _ _ _ =>
    cases hi
    exact store_faults hr
  | _ => cases hi

/-- An instruction keeps the run status, or takes `IntegerOverflow`, or takes the fault of its own access. -/
theorem exec_status {i : Instr} {t : State} (h : exec i s = .next t) :
    t.status = s.status ∨
    (mayOverflow i.mnemonic = true ∧ t = s.takeFault ⟨.integerOverflow, none⟩) ∨
    ∃ k w rs imm r, memoryAccess i = some (k, w, rs, imm) ∧
      s.accessCheck k w (s.effectiveAddress rs imm) = some r ∧ t = s.takeFault r := by
  rcases exec_cases i s with ⟨_, _, -, e⟩ | ⟨_, _, _, -, e⟩ | ⟨_, _, _, _, u, -, -, hu, e⟩ |
    ⟨_, -, e⟩ | ⟨_, -, -, e⟩ | ⟨ho, e⟩ | ⟨k, w, rs, imm, r, hi, hr, e⟩ <;> cases e.symm.trans h
  case inr.inr.inl =>
    obtain ⟨m, rfl, -⟩ := memWrite_ok hu
    exact .inl rfl
  case inr.inr.inr.inr.inr.inl => exact .inr (.inl ⟨ho, rfl⟩)
  case inr.inr.inr.inr.inr.inr => exact .inr (.inr ⟨k, w, rs, imm, r, hi, hr, rfl⟩)
  all_goals exact .inl rfl

end Sys2Proof.Machine
end

section
/-! SUPPORT. A value that stands in memory at an aligned, accepted address: a checked write and `sw` put it there; a read of
it or of a part of it, and a fetch, give it. -/

namespace Sys2Proof.Machine

/-- The bytes of `v` stand at `a` in the byte order in force, where an access of its width passes its checks (20_memory
R41, R42). -/
structure ValueAt (s : State) (a : Word) (w : Width) (v : BitVec w.bits) : Prop where
  aligned : a.toNat % w.bytes = 0
  accepted : ∀ j : Nat, j < w.bytes → Params.memValid s.params (a.toNat + j) = true
  bytes : ∀ j : Nat, j < w.bytes → s.mem.read (a.toNat + j) = byteOf s.params.endian w v j

namespace ValueAt

variable {s : State} {a : Word} {w : Width} {v : BitVec w.bits} {x : Word}

/-- A read gives the value, whatever it is for. -/
theorem memRead_eq (h : ValueAt s a w v) (k : AccessKind) : s.memRead k w a = .ok v :=
  memRead_of_bytes (accessCheck_accepted k h.aligned h.accepted) h.bytes

/-- A fetch at the address of a word decodes the word. -/
theorem fetchInstr_eq (h : ValueAt s a .word x) : (s.setPc a).fetchInstr = decodeOrRaise x :=
  WordAtPc.fetchInstr_eq ⟨h.aligned, h.accepted, h.bytes⟩

/-- A narrower value stands `n` bytes on when its bytes are the wider one's from byte `n` on. -/
theorem part (h : ValueAt s a w v) {b : Word} {u : Width} {y : BitVec u.bits} {n : Nat}
    (hb : b.toNat = a.toNat + n) (hal : b.toNat % u.bytes = 0) (hn : n + u.bytes ≤ w.bytes)
    (hy : ∀ j : Nat, j < u.bytes → byteOf s.params.endian u y j = byteOf s.params.endian w v (n + j)) :
    ValueAt s b u y where
  aligned := hal
  accepted j hj := by
    rw [hb, Nat.add_assoc]
    exact h.accepted (n + j) (by omega)
  bytes j hj := by
    rw [hb, Nat.add_assoc, hy j hj]
    exact h.bytes (n + j) (by omega)

/-- Byte 0 of a word stands at its address. -/
theorem firstByte (h : ValueAt s a .word x) : ValueAt s a .byte (byteOf s.params.endian .word x 0) := by
  refine h.part (n := 0) rfl (Nat.mod_one _) (by decide) fun j hj => ?_
  obtain rfl : j = 0 := Nat.lt_one_iff.1 hj
  exact byteOf_byte _ _

/-- The last half of a word stands two bytes on. -/
theorem lastHalf (h : ValueAt s a .word x) :
    ValueAt s (a + 2) .half (Machine.lastHalf s.params.endian x) := by
  have hal : a.toNat % 4 = 0 := h.aligned
  have hplus : (a + 2).toNat = a.toNat + 2 := by bv_omega
  have hal' : (a + 2).toNat % 2 = 0 := by omega
  exact h.part hplus hal' (by decide) fun j hj => byteOf_lastHalf _ _ hj

end ValueAt

/-- A write that succeeds puts the value there. -/
theorem valueAt_of_memWrite {s t : State} {w : Width} {a : Word} {v : BitVec w.bits}
    (hs : s.wf = true) (h : s.memWrite w a v = .ok t) : ValueAt t a w v := by
  rcases memWrite_cases s w a v with ⟨r, -, e⟩ | ⟨hc, e⟩ <;> cases e.symm.trans h
  obtain ⟨hal, hacc⟩ := accessCheck_none.1 hc
  refine ⟨hal, allValid_iff.1 hacc, fun j hj => ?_⟩
  rw [read_writeValue hs hal, if_pos (by omega), Nat.add_sub_cancel_left]

/-- An aligned, accepted `sw` completes, and the word of `x[rt]` then stands at the effective address. -/
theorem exec_sw_valueAt {s : State} (rt : RegIdx) {rs : RegIdx} {imm : Imm16} (hs : s.wf = true)
    (hal : (s.effectiveAddress rs imm).toNat % 4 = 0)
    (hacc : ∀ j : Nat, j < 4 →
      Params.memValid s.params ((s.effectiveAddress rs imm).toNat + j) = true) :
    ∃ t : State, exec (.sw rt imm rs) s = .next t ∧ t.params = s.params ∧
      ValueAt t (s.effectiveAddress rs imm) .word (s.readReg rt) := by
  have hc := accessCheck_accepted (w := .word) .store hal hacc
  obtain ⟨-, -, hbytes⟩ := valueAt_of_memWrite hs (memWrite_of_check_none (s.readReg rt) hc)
  exact ⟨_, store_next hc, rfl, hal, hacc, hbytes⟩

end Sys2Proof.Machine
end

section
/-! The statements of 20_memory. -/

namespace Sys2Proof.Machine

/-- Settles O6: the four bytes make up the word again, and it decodes to its instruction. -/
theorem instructionBytesDecode : Obligations.InstructionBytesDecode :=
  fun _ i rest => decodeBytes_splitBytes rest (decode_encode i)

/-- Settles O26: the write puts the value's bytes at the address, and a read puts them together again. -/
theorem writeThenReadGivesTheValue : Obligations.WriteThenReadGivesTheValue :=
  fun _ _ k _ _ _ hs h => (valueAt_of_memWrite hs h).memRead_eq k

/-- Settles O27: the checks in their order, then read after write of the value's bytes. -/
theorem memWriteWritesItsBytesOrRaises : Obligations.MemWriteWritesItsBytesOrRaises := by
  intro s w a v hs
  refine ⟨fun hmis => ?_, fun hal href => ?_, fun hal hacc => ?_⟩
  · exact memWrite_of_check_some (accessCheck_misaligned .store hmis)
  · exact memWrite_of_check_some (accessCheck_refused .store hal href)
  · refine ⟨_, memWrite_of_check_none v (accessCheck_accepted .store hal hacc), fun c => ?_⟩
    rw [read_writeValue hs hal]
    cases s.params.endian with
    | big => rw [byteOf_big]
    | little => rfl

/-- Settles O28: the checks in their order, then each byte of the assembled value is the byte it was made of. -/
theorem memReadAssemblesItsBytesOrRaises : Obligations.MemReadAssemblesItsBytesOrRaises := by
  intro s k w a
  refine ⟨fun hmis => ?_, fun hal href => ?_, fun hal hacc => ?_⟩
  · exact memRead_of_check_some (accessCheck_misaligned k hmis)
  · exact memRead_of_check_some (accessCheck_refused k hal href)
  · refine ⟨_, memRead_of_check_none (accessCheck_accepted k hal hacc), fun i hi => ?_⟩
    rw [← byteOf_joinBytes s.params.endian w (fun j => s.mem.read (a.toNat + j)) i hi]
    cases s.params.endian with
    | big => rw [byteOf_big]
    | little => rfl

/-- Settles O29: the stored word stands at the address, its first byte there too, its last halfword two bytes on. -/
theorem storedWordReadBackInParts : Obligations.StoredWordReadBackInParts := by
  intro s rt rs imm hs hal hacc
  obtain ⟨t, hexec, hparams, hword⟩ := exec_sw_valueAt rt hs hal hacc
  refine ⟨t, hexec, hword.memRead_eq .load, ?_, ?_⟩
  · rw [hword.firstByte.memRead_eq .load, hparams]
    cases s.params.endian <;> rfl
  · rw [hword.lastHalf.memRead_eq .load, hparams]
    cases s.params.endian <;> rfl

/-- Settles O30: the stored word stands at the address, and a fetch there decodes it. -/
theorem storedInstructionIsFetched : Obligations.StoredInstructionIsFetched := by
  intro s i rt rs imm hs hrt hal hacc
  obtain ⟨t, hexec, -, hword⟩ := exec_sw_valueAt rt hs hal hacc
  refine ⟨t, hexec, ?_⟩
  rw [hword.fetchInstr_eq, hrt, decodeOrRaise, decode_encode]

/-- Settles O45: the alignment check comes first; of the faults an instruction can take, IntegerOverflow is no
AddressError, and the access of a byte raises none. -/
theorem misalignedAccessFaults : Obligations.MisalignedAccessFaults := by
  refine ⟨fun i s k w rs imm hi hmis => ?_, fun i s t k rs imm hi hs h epc info ht => ?_⟩
  · exact exec_faults_of_check_some hi (accessCheck_misaligned k hmis)
  · rcases exec_status h with hkept | ⟨-, rfl⟩ | ⟨_, _, _, _, r, hi', hr, rfl⟩
    · cases ht.symm.trans (hkept.trans hs)
    · cases ht
    · cases hi.symm.trans hi'
      rcases accessCheck_some.1 hr with ⟨hmis, -⟩ | ⟨-, -, rfl⟩
      · exact hmis (Nat.mod_one _)
      · cases ht

end Sys2Proof.Machine
end

section
/-! SUPPORT. The opcode map of 30_encoding R72 read back: a mnemonic's place in the map is the one its row of the
table has. -/

namespace Sys2Proof

/-- The map gives a mnemonic for its own `funct`, in the R-type group. -/
theorem row_of_opcodeMapFunct :
    ∀ f : BitVec 6, ∀ m ∈ opcodeMapFunct f, fieldOp m.row.bits = 0b000000#6 ∧ fieldFunct m.row.bits = f := by
  decide

/-- The map gives a mnemonic for its own `rt`, in the group `op = 000001`. -/
theorem row_of_opcodeMapRt :
    ∀ r : RegIdx, ∀ m ∈ opcodeMapRt r, fieldOp m.row.bits = 0b000001#6 ∧ fieldRt m.row.bits = r := by
  decide

/-- The map gives a mnemonic for its own `op`, outside the two groups. -/
theorem row_of_opcodeMapOp :
    ∀ op : BitVec 6, ∀ m ∈ opcodeMapOp op, fieldOp m.row.bits = op := by
  decide

/-- The map gives each row's bits the row's mnemonic. -/
theorem opcodeMap_row_bits : ∀ m ∈ Mnemonic.all, opcodeMap m.row.bits = some m := by
  decide

/-- The map reads `op`, and `funct` or `rt` in the two groups, and gives the mnemonic whose row has them. -/
theorem opcodeMap_eq_some_iff (w : Word) (m : Mnemonic) :
    opcodeMap w = some m ↔
      fieldOp w = fieldOp m.row.bits ∧
      (fieldOp m.row.bits = 0b000000#6 → fieldFunct w = fieldFunct m.row.bits) ∧
      (fieldOp m.row.bits = 0b000001#6 → fieldRt w = fieldRt m.row.bits) := by
  constructor
  · intro h
    unfold opcodeMap at h
    split_ifs at h with h0 h1
    · obtain ⟨hop, hfunct⟩ := row_of_opcodeMapFunct _ m h
      exact ⟨h0.trans hop.symm, fun _ => hfunct.symm, fun hop1 => absurd (hop.symm.trans hop1) (by decide)⟩
    · obtain ⟨hop, hrt⟩ := row_of_opcodeMapRt _ m h
      exact ⟨h1.trans hop.symm, fun hop0 => absurd (hop.symm.trans hop0) (by decide), fun _ => hrt.symm⟩
    · have hop := row_of_opcodeMapOp _ m h
      exact ⟨hop.symm, fun hop0 => absurd (hop.symm.trans hop0) h0, fun hop1 => absurd (hop.symm.trans hop1) h1⟩
  · rintro ⟨hop, hfunct, hrt⟩
    rw [← opcodeMap_row_bits m m.mem_all]
    unfold opcodeMap
    rw [hop]
    split_ifs with h0 h1
    · rw [hfunct h0]
    · rw [hrt h1]
    · rfl

end Sys2Proof
end

section
/-! SUPPORT. The assembler on the operands a line of an instruction is written with (30_encoding R80 to R84). -/

namespace Sys2Proof.Machine

/-! ### One operand -/

@[simp] theorem asmReg_toNat (r : RegIdx) : asmReg r.toNat = some r := by
  simp [asmReg, asmRegOk, r.isLt]

@[simp] theorem asmShamt_toNat (shamt : Shamt) : asmShamt shamt.toNat = some shamt := by
  have hlt := shamt.isLt
  have hok : asmShamtOk shamt.toNat = true := by
    simp only [asmShamtOk, Bool.and_eq_true, decide_eq_true_eq]
    omega
  rw [asmShamt, if_pos hok, BitVec.ofInt_natCast, BitVec.ofNat_toNat, BitVec.setWidth_eq]

@[simp] theorem asmImm_toInt (imm : Imm16) : asmImm imm.toInt = some imm := by
  have hlow := imm.le_toInt
  have hhigh := imm.toInt_lt
  have hok : asmImmOk imm.toInt = true := by
    simp only [asmImmOk, Bool.and_eq_true, decide_eq_true_eq]
    omega
  rw [asmImm, if_pos hok, BitVec.ofInt_toInt]

@[simp] theorem asmImm_toNat (imm : Imm16) : asmImm imm.toNat = some imm := by
  have hlt := imm.isLt
  have hok : asmImmOk imm.toNat = true := by
    simp only [asmImmOk, Bool.and_eq_true, decide_eq_true_eq]
    omega
  rw [asmImm, if_pos hok, BitVec.ofInt_natCast, BitVec.ofNat_toNat, BitVec.setWidth_eq]

/-! ### The address of a jump (30_encoding R67, R83) -/

/-- A word is the address a jump forms when its three fields are the region, the target and zeros. -/
theorem eq_jumpAddress_iff {a next : Word} {target : Target26} :
    a = jumpAddress next target ↔
      a.extractLsb' 28 4 = next.extractLsb' 28 4 ∧ a.extractLsb' 2 26 = target ∧ a.extractLsb' 0 2 = 0#2 := by
  constructor
  · rintro rfl
    exact ⟨jumpAddress_region next target, jumpAddress_target next target, jumpAddress_low next target⟩
  · rintro ⟨hregion, rfl, hlow⟩
    rw [jumpAddress, ← hregion, ← hlow,
      BitVec.extractLsb'_append_extractLsb'_eq_extractLsb' (show 28 = 2 + 26 from rfl),
      BitVec.extractLsb'_append_extractLsb'_eq_extractLsb' (show 2 = 0 + 2 from rfl)]
    exact BitVec.extractLsb'_eq_self.symm

/-- The two low bits of a word are zero exactly at a multiple of 4. -/
theorem low_eq_zero_iff (a : Word) : a.extractLsb' 0 2 = 0#2 ↔ a.toNat % 4 = 0 := by
  rw [← BitVec.toNat_inj, BitVec.extractLsb'_toNat]
  rfl

/-- The assembler accepts an address for a jump exactly when it is the value of a word that is a multiple of 4 in the
region of the address after the jump. -/
theorem asmAddressOk_iff {pc : Word} {v : Int} :
    asmAddressOk pc v = true ↔
      v = (BitVec.ofInt 32 v).toNat ∧ (BitVec.ofInt 32 v).extractLsb' 0 2 = 0#2 ∧
        (BitVec.ofInt 32 v).extractLsb' 28 4 = (pc + 4#32).extractLsb' 28 4 := by
  rw [low_eq_zero_iff]
  simp only [asmAddressOk, Bool.and_eq_true, decide_eq_true_eq, beq_iff_eq, BitVec.toNat_ofInt, ← and_assoc]
  refine and_congr_left fun _ => ?_
  omega

/-- The assembler gives a target field exactly for the address a jump forms from it. -/
theorem asmTarget_eq_some_iff {pc : Word} {v : Int} {target : Target26} :
    asmTarget pc v = some target ↔ v = (jumpAddress (pc + 4#32) target).toNat := by
  unfold asmTarget
  rw [Option.ite_none_right_eq_some, asmAddressOk_iff, Option.some_inj]
  constructor
  · rintro ⟨⟨hv, hlow, hregion⟩, htarget⟩
    rw [← eq_jumpAddress_iff.2 ⟨hregion, htarget, hlow⟩]
    exact hv
  · rintro rfl
    obtain ⟨hregion, htarget, hlow⟩ := eq_jumpAddress_iff.1 (Eq.refl (jumpAddress (pc + 4#32) target))
    rw [ofNat_toNat_word]
    exact ⟨⟨rfl, hlow, hregion⟩, htarget⟩

@[simp] theorem asmTarget_jumpAddress (pc : Word) (target : Target26) :
    asmTarget pc (jumpAddress (pc + 4#32) target).toNat = some target :=
  asmTarget_eq_some_iff.2 rfl

/-! ### The forms of R81 -/

theorem asmThreeRegs_regs (f : RegIdx → RegIdx → RegIdx → Instr) (a b c : RegIdx) :
    asmThreeRegs f [regOperand a, regOperand b, regOperand c] = some (f a b c) := by
  simp [asmThreeRegs, regOperand]

theorem asmRegsShamt_regs (f : RegIdx → RegIdx → Shamt → Instr) (a b : RegIdx) (shamt : Shamt) :
    asmRegsShamt f [regOperand a, regOperand b, .const shamt.toNat] = some (f a b shamt) := by
  simp [asmRegsShamt, regOperand]

theorem asmTwoRegs_regs (f : RegIdx → RegIdx → Instr) (a b : RegIdx) :
    asmTwoRegs f [regOperand a, regOperand b] = some (f a b) := by
  simp [asmTwoRegs, regOperand]

theorem asmOneReg_reg (f : RegIdx → Instr) (a : RegIdx) :
    asmOneReg f [regOperand a] = some (f a) := by
  simp [asmOneReg, regOperand]

theorem asmRegsImm_signed (f : RegIdx → RegIdx → Imm16 → Instr) (a b : RegIdx) (imm : Imm16) :
    asmRegsImm f [regOperand a, regOperand b, signedConst imm] = some (f a b imm) := by
  simp [asmRegsImm, regOperand, signedConst]

theorem asmRegsImm_unsigned (f : RegIdx → RegIdx → Imm16 → Instr) (a b : RegIdx) (imm : Imm16) :
    asmRegsImm f [regOperand a, regOperand b, unsignedConst imm] = some (f a b imm) := by
  simp [asmRegsImm, regOperand, unsignedConst]

theorem asmRegImm_signed (f : RegIdx → Imm16 → Instr) (a : RegIdx) (imm : Imm16) :
    asmRegImm f [regOperand a, signedConst imm] = some (f a imm) := by
  simp [asmRegImm, regOperand, signedConst]

theorem asmRegImm_unsigned (f : RegIdx → Imm16 → Instr) (a : RegIdx) (imm : Imm16) :
    asmRegImm f [regOperand a, unsignedConst imm] = some (f a imm) := by
  simp [asmRegImm, regOperand, unsignedConst]

theorem asmRegBased_based (f : RegIdx → Imm16 → RegIdx → Instr) (a b : RegIdx) (imm : Imm16) :
    asmRegBased f [regOperand a, .based imm.toInt b.toNat] = some (f a imm b) := by
  simp [asmRegBased, regOperand]

theorem asmAddress_address (pc : Word) (f : Target26 → Instr) (target : Target26) :
    asmAddress pc f [addressOperand pc target] = some (f target) := by
  simp [asmAddress, addressOperand]

end Sys2Proof.Machine
end

section
/-! The statements of 30_encoding. -/

namespace Sys2Proof.Machine

/-- Settles O2: the word is in the instruction's own row, and the row reads the operands back. -/
theorem encodeThenDecode : Obligations.EncodeThenDecode :=
  decode_encode

/-- Settles O3: the row that admits the word fixes every bit that is no operand's; a word without a row does not
decode. -/
theorem decodeThenEncode : Obligations.DecodeThenEncode := by
  intro w i h
  by_cases hw : ∃ m : Mnemonic, m.admits w = true
  · obtain ⟨m, hm⟩ := hw
    cases (decode_of_admits hm).symm.trans h
    exact encode_instr_of_admits hm
  · have hnone : ∀ m : Mnemonic, m.admits w = false := by simpa using hw
    cases (decode_of_not_admits hnone).symm.trans h

/-- Settles O4: no two rows agree where both look, so the row the decoder finds is the only one. -/
theorem decodingTakesTheUniqueRow : Obligations.DecodingTakesTheUniqueRow := by
  intro w
  refine ⟨fun m n => Mnemonic.admits_unique, fun m hm => ?_, fun hnone => ?_⟩
  · rw [decodeOrRaise, decode_of_admits hm]
  · rw [decodeOrRaise, decode_of_not_admits hnone]

/-- Settles O5: row by row, the fields the mask looks at are those the map reads and those that must be zero. -/
theorem opcodeMapAgreesWithTable : Obligations.OpcodeMapAgreesWithTable := by
  intro w m
  rw [admits_iff_fields, opcodeMap_eq_some_iff]
  cases m with
  | add | addu | sub | subu | and | or | xor | nor | slt | sltu | sllv | srlv | srav | sll | srl | sra
  | mult | multu | div | divu | mfhi | mflo | jr =>
    simp [Mnemonic.row, unusedFieldsZero, and_assoc, and_left_comm, and_comm]
  | _ => simp [Mnemonic.row, unusedFieldsZero, and_comm]

/-- Settles O7: each form of R81 reads back the operands it is written with. -/
theorem assembleDisassembled : Obligations.AssembleDisassembled := by
  intro pc i
  cases i with
  | add _ _ _ | addu _ _ _ | sub _ _ _ | subu _ _ _ | and _ _ _ | or _ _ _ | xor _ _ _ | nor _ _ _
  | slt _ _ _ | sltu _ _ _ | sllv _ _ _ | srlv _ _ _ | srav _ _ _ => exact asmThreeRegs_regs _ _ _ _
  | sll _ _ _ | srl _ _ _ | sra _ _ _ => exact asmRegsShamt_regs _ _ _ _
  | mult _ _ | multu _ _ | div _ _ | divu _ _ => exact asmTwoRegs_regs _ _ _
  | mfhi _ | mflo _ | jr _ => exact asmOneReg_reg _ _
  | addi _ _ _ | addiu _ _ _ | beq _ _ _ | bne _ _ _ => exact asmRegsImm_signed _ _ _ _
  | andi _ _ _ | ori _ _ _ | xori _ _ _ => exact asmRegsImm_unsigned _ _ _ _
  | lb _ _ _ | lh _ _ _ | lw _ _ _ | lbu _ _ _ | lhu _ _ _ | sb _ _ _ | sh _ _ _ | sw _ _ _ =>
    exact asmRegBased_based _ _ _ _
  | blez _ _ | bgtz _ _ | bltz _ _ | bgez _ _ | bltzal _ _ | bgezal _ _ => exact asmRegImm_signed _ _ _
  | lui _ _ => exact asmRegImm_unsigned _ _ _
  | j _ | jal _ => simp only [assemble, disassemble, Instr.mnemonic, operandsOf, asmAddress_address]

/-- Settles O8: the accepted address is the one formed from the field, whose low bits are zero. -/
theorem assembledJumpReachesItsAddress : Obligations.AssembledJumpReachesItsAddress := by
  intro pc v target h
  obtain rfl := asmTarget_eq_some_iff.1 h
  have hmod := (low_eq_zero_iff _).1 (jumpAddress_low (pc + 4#32) target)
  exact ⟨rfl, by omega⟩

/-- Settles O52: the address of `j` and `jal` has the three fields; at a misaligned `x[rs]` the fetch's first check
raises. -/
theorem jumpsGoToTheirTargets : Obligations.JumpsGoToTheirTargets := by
  intro s target rs
  refine ⟨⟨s.jumpTarget target, jumpAddress_region _ _, jumpAddress_target _ _, jumpAddress_low _ _,
    ?_, ?_⟩, ?_, ?_⟩
  · exact ⟨_, rfl, rfl, onlyWritesPc_setPc s _⟩
  · exact ⟨_, rfl, rfl, onlyWritesReg_setPc s _ _ _⟩
  · exact ⟨_, rfl, rfl, onlyWritesPc_setPc s _⟩
  · intro hs hmis hp
    exact ⟨s.setPc (s.readReg rs), rfl, (fetchFaultsInOrder (s.setPc (s.readReg rs)) hs hp).1 hmis⟩

/-- Settles O1: each word is its instruction's word; the damaged one is in no row. -/
theorem specWordsDecode : Obligations.SpecWordsDecode :=
  ⟨decode_encode (.add 1 2 3), decode_encode (.mult 2 3), decode_encode (.sll 1 2 10),
    decode_encode (.sllv 1 2 3), decode_encode (.addi 1 2 100), decode_encode (.lw 1 100 2),
    decode_encode (.sw 3 500 4), decode_encode (.lui 1 40), decode_encode (.bne 1 2 100),
    decode_encode (.bltzal 1 100), decode_encode (.slt 5 3 1), decode_encode (.jal 0xC102),
    decode_encode (.jr 31), decode_of_not_admits fun m => by cases m <;> decide⟩

end Sys2Proof.Machine
end

section
/-! SUPPORT. The exact results of the arithmetic instructions: the signed range and the overflow of 40_arithmetic R92,
results modulo 2^32, the two halves of a product (R93), and the quotient and remainder of a division (R94, R95). -/

namespace Sys2Proof.Machine

/-! ### Signed overflow (R92) -/

theorem outsideSigned_iff {v : Int} : outsideSigned v = true ↔ v < -(2 ^ 31) ∨ 2 ^ 31 - 1 < v := by
  rw [outsideSigned, Bool.or_eq_true, decide_eq_true_eq, decide_eq_true_eq]

/-- The same range as the library's overflow predicates write it. -/
theorem outsideSigned_eq (v : Int) :
    outsideSigned v = (decide (v ≥ 2 ^ 31) || decide (v < -2 ^ 31)) := by
  rw [Bool.eq_iff_iff, outsideSigned_iff, Bool.or_eq_true, decide_eq_true_eq, decide_eq_true_eq]
  omega

theorem addOverflows_eq_saddOverflow (a b : Word) : addOverflows a b = a.saddOverflow b :=
  outsideSigned_eq (a.toInt + b.toInt)

theorem subOverflows_eq_ssubOverflow (a b : Word) : subOverflows a b = a.ssubOverflow b :=
  outsideSigned_eq (a.toInt - b.toInt)

/-- The form of R92 by sign bits: equal signs, and a sum of the other sign. -/
theorem addOverflows_iff_msb (a b : Word) :
    addOverflows a b = true ↔ a.msb = b.msb ∧ (a + b).msb ≠ a.msb := by
  rw [addOverflows_eq_saddOverflow, BitVec.saddOverflow_eq]
  simp

/-- The form of R92 by sign bits: different signs, and a difference of the other sign than the first operand. -/
theorem subOverflows_iff_msb (a b : Word) :
    subOverflows a b = true ↔ a.msb ≠ b.msb ∧ (a - b).msb ≠ a.msb := by
  rw [subOverflows_eq_ssubOverflow, BitVec.ssubOverflow_eq]
  cases a.msb <;> cases b.msb <;> simp

/-- A word that is `e` modulo 2^32 is written, and is exactly `e`, when `e` fits; otherwise the fault is taken. -/
theorem writeUnlessOverflow_exact (s : State) (d : RegIdx) {v : Word} {e : Int}
    (hv : v.toInt = e.bmod (2 ^ 32)) :
    (-(2 ^ 31) ≤ e ∧ e ≤ 2 ^ 31 - 1 →
      CompletesWriting s (s.writeUnlessOverflow d (outsideSigned e) v) d fun v => v.toInt = e) ∧
    (e < -(2 ^ 31) ∨ 2 ^ 31 - 1 < e →
      Faults s (s.writeUnlessOverflow d (outsideSigned e) v) .integerOverflow none) := by
  constructor
  · intro hfits
    have hin : outsideSigned e = false := by
      rw [Bool.eq_false_iff, ne_eq, outsideSigned_iff]
      omega
    have hexact : e.bmod (2 ^ 32) = e := Int.bmod_eq_of_le (by omega) (by omega)
    rw [hin, writeUnlessOverflow_false]
    exact writeAndAdvance_completes s d v _ (hv.trans hexact)
  · intro hout
    rw [outsideSigned_iff.2 hout]
    exact writeUnlessOverflow_true s d v

/-! ### Products (R93) -/

/-- The two halves of a product, put together again. -/
theorem product_halves (p : BitVec 64) : p.extractLsb' 32 32 ++ p.extractLsb' 0 32 = p := by
  rw [BitVec.extractLsb'_append_extractLsb'_eq_extractLsb' (show 32 = 0 + 32 from rfl)]
  exact BitVec.extractLsb'_eq_self

/-- A signed product is exact in 64 bits. -/
theorem toInt_ofInt_mul (a b : Word) :
    (BitVec.ofInt 64 (a.toInt * b.toInt)).toInt = a.toInt * b.toInt := by
  have hle : a.toInt * b.toInt ≤ 2 ^ 62 := BitVec.toInt_mul_toInt_le
  have hge : -2 ^ 62 ≤ a.toInt * b.toInt := BitVec.le_toInt_mul_toInt
  exact BitVec.toInt_ofInt_eq_self (by decide) (by omega) (by omega)

/-- An unsigned product is exact in 64 bits. -/
theorem toNat_ofNat_mul (a b : Word) :
    (BitVec.ofNat 64 (a.toNat * b.toNat)).toNat = a.toNat * b.toNat := by
  have hlt : a.toNat * b.toNat < 2 ^ 32 * 2 ^ 32 := Nat.mul_lt_mul'' a.isLt b.isLt
  rw [BitVec.toNat_ofNat]
  exact Nat.mod_eq_of_lt hlt

/-- The low word of an integer taken modulo 2^64 is the integer modulo 2^32. -/
theorem lowWord_ofInt (e : Int) : (BitVec.ofInt 64 e).extractLsb' 0 32 = BitVec.ofInt 32 e := by
  apply BitVec.eq_of_toNat_eq
  rw [BitVec.extractLsb'_toNat, BitVec.toNat_ofInt, BitVec.toNat_ofInt]
  omega

/-- The low word of the signed product is the product of the words. -/
theorem lowWord_signedProduct (a b : Word) :
    (BitVec.ofInt 64 (a.toInt * b.toInt)).extractLsb' 0 32 = a * b := by
  rw [lowWord_ofInt, BitVec.ofInt_mul, BitVec.ofInt_toInt, BitVec.ofInt_toInt]

/-- The low word of the unsigned product is the product of the words. -/
theorem lowWord_unsignedProduct (a b : Word) :
    (BitVec.ofNat 64 (a.toNat * b.toNat)).extractLsb' 0 32 = a * b := by
  rw [← BitVec.ofInt_natCast, lowWord_ofInt, BitVec.ofInt_natCast, BitVec.ofNat_mul]
  simp

/-! ### Quotients and remainders (R94, R95) -/

theorem divUndefined_iff {a b : Word} :
    divUndefined a b = true ↔ b = 0#32 ∨ (a = 0x80000000#32 ∧ b = 0xFFFFFFFF#32) := by
  simp [divUndefined]

theorem divuUndefined_iff {b : Word} : divuUndefined b = true ↔ b = 0#32 := beq_iff_eq

/-- `div` on operands for which R95 leaves the result unpredictable. -/
theorem exec_div_of_undefined {s : State} {rs rt : RegIdx}
    (h : divUndefined (s.readReg rs) (s.readReg rt) = true) :
    exec (.div rs rt) s = .next s.drawHiLo.advance :=
  if_pos h

/-- `div` on every other operand. -/
theorem exec_div_of_defined {s : State} {rs rt : RegIdx}
    (h : ¬divUndefined (s.readReg rs) (s.readReg rt) = true) :
    exec (.div rs rt) s =
      .next (s.writeHiLo (BitVec.ofInt 32 ((s.readReg rs).toInt -
          signedQuotient (s.readReg rs) (s.readReg rt) * (s.readReg rt).toInt))
        (BitVec.ofInt 32 (signedQuotient (s.readReg rs) (s.readReg rt)))).advance :=
  if_neg h

/-- `divu` by zero. -/
theorem exec_divu_of_undefined {s : State} {rs rt : RegIdx}
    (h : divuUndefined (s.readReg rt) = true) :
    exec (.divu rs rt) s = .next s.drawHiLo.advance :=
  if_pos h

/-- `divu` by every other divisor. -/
theorem exec_divu_of_defined {s : State} {rs rt : RegIdx}
    (h : ¬divuUndefined (s.readReg rt) = true) :
    exec (.divu rs rt) s =
      .next (s.writeHiLo (BitVec.ofNat 32 ((s.readReg rs).toNat % (s.readReg rt).toNat))
        (BitVec.ofNat 32 ((s.readReg rs).toNat / (s.readReg rt).toNat))).advance :=
  if_neg h

/-- The truncated quotient is exact in 32 bits, but for 0x80000000 by -1. -/
theorem toInt_ofInt_signedQuotient {a b : Word} (h : ¬(a = 0x80000000#32 ∧ b = 0xFFFFFFFF#32)) :
    (BitVec.ofInt 32 (signedQuotient a b)).toInt = signedQuotient a b := by
  have hne : a ≠ BitVec.intMin 32 ∨ b ≠ -1#32 := not_and_or.1 h
  rw [BitVec.toInt_ofInt, signedQuotient, ← BitVec.toInt_sdiv, BitVec.toInt_sdiv_of_ne_or_ne a b hne]

/-- What is left of the dividend is the remainder of truncated division. -/
theorem sub_signedQuotient_mul (a b : Word) :
    a.toInt - signedQuotient a b * b.toInt = a.toInt.tmod b.toInt := by
  rw [Int.tmod_def, Int.mul_comm, signedQuotient]

/-- The remainder is exact in 32 bits. -/
theorem toInt_ofInt_tmod (a b : Word) :
    (BitVec.ofInt 32 (a.toInt.tmod b.toInt)).toInt = a.toInt.tmod b.toInt := by
  rw [← BitVec.toInt_srem, BitVec.ofInt_toInt]

/-- The remainder is smaller than the divisor in magnitude. -/
theorem natAbs_tmod_lt (a : Int) {b : Int} (hb : b ≠ 0) : (a.tmod b).natAbs < b.natAbs := by
  rw [Int.natAbs_tmod]
  exact Nat.mod_lt _ (Int.natAbs_pos.2 hb)

/-- The remainder is zero or has the sign of the dividend. -/
theorem tmod_eq_zero_or_neg_iff (a b : Int) : a.tmod b = 0 ∨ (a.tmod b < 0 ↔ a < 0) := by
  have hsign := Int.sign_tmod a b
  split_ifs at hsign with hdvd
  · exact .inl (Int.sign_eq_zero_iff_zero.1 hsign)
  · rw [← Int.sign_eq_neg_one_iff_neg, hsign, Int.sign_eq_neg_one_iff_neg]
    exact .inr Iff.rfl

/-- A number no greater than the value of a word is exact in 32 bits. -/
theorem toNat_ofNat_of_le {a : Word} {n : Nat} (h : n ≤ a.toNat) : (BitVec.ofNat 32 n).toNat = n := by
  rw [BitVec.toNat_ofNat, Nat.mod_eq_of_lt (Nat.lt_of_le_of_lt h a.isLt)]

end Sys2Proof.Machine
end

section
/-! The statements of 40_arithmetic. -/

namespace Sys2Proof.Machine

/-- Settles O32: the operation modulo 2^32 and the overflow check are of one exact result; the sign bits are the
library's form of the check. -/
theorem addSubAddiResultOrOverflow : Obligations.AddSubAddiResultOrOverflow := by
  refine ⟨fun s rd rs rt => ?_, fun s rd rs rt => ?_, fun s rt rs imm => ?_,
    fun a b => ⟨addOverflows_iff_msb a b, subOverflows_iff_msb a b⟩⟩
  · exact writeUnlessOverflow_exact s rd (BitVec.toInt_add _ _)
  · exact writeUnlessOverflow_exact s rd BitVec.toInt_sub
  · rw [← toInt_sextImm imm]
    exact writeUnlessOverflow_exact s rt (BitVec.toInt_add _ _)

/-- Settles O33: the words' own sum and difference are taken modulo 2^32; `addiu` adds as the effective address does. -/
theorem wrappingAddSubAddiu : Obligations.WrappingAddSubAddiu := by
  refine ⟨fun s rd rs rt => ?_, fun s rd rs rt => ?_, fun s rt rs imm => ?_⟩ <;>
    refine writeAndAdvance_completes s _ _ _ ?_
  · exact BitVec.toNat_add _ _
  · rw [BitVec.toNat_sub]
    omega
  · have he : s.readReg rs + sextImm imm = _ := effectiveAddress_eq s rs imm
    rw [he, BitVec.toNat_ofInt]
    omega

/-- Settles O34: the halves put together are the product, and either product fits in 64 bits. -/
theorem multiplyGivesTheExactProduct : Obligations.MultiplyGivesTheExactProduct := by
  refine ⟨fun s rs rt => ?_, fun s rs rt => ?_⟩ <;> refine writeProduct_completes s _ _ ?_ <;>
    rw [product_halves]
  · exact toInt_ofInt_mul _ _
  · exact toNat_ofNat_mul _ _

/-- Settles O35: both low words are the product of the words. -/
theorem productLowWordIgnoresSign : Obligations.ProductLowWordIgnoresSign := by
  intro s t u rs rt ht hu
  cases ht
  cases hu
  exact (lowWord_signedProduct _ _).trans (lowWord_unsignedProduct _ _).symm

/-- Settles O36: quotient and remainder are exact in 32 bits, and are those of truncated division. -/
theorem divideGivesQuotientAndRemainder : Obligations.DivideGivesQuotientAndRemainder := by
  refine ⟨fun s rs rt hb hab => ?_, fun s rs rt hb => ?_⟩
  · rw [exec_div_of_defined (mt divUndefined_iff.1 (not_or.2 ⟨hb, hab⟩)), sub_signedQuotient_mul]
    apply writeHiLo_completes
    rw [toInt_ofInt_signedQuotient hab, toInt_ofInt_tmod]
    exact ⟨(Int.tdiv_mul_add_tmod _ _).symm, natAbs_tmod_lt _ (mt (toInt_eq_zero_iff _).1 hb),
      tmod_eq_zero_or_neg_iff _ _⟩
  · rw [exec_divu_of_defined (mt divuUndefined_iff.1 hb)]
    apply writeHiLo_completes
    rw [toNat_ofNat_of_le (Nat.div_le_self _ _), toNat_ofNat_of_le (Nat.mod_le _ _)]
    exact ⟨(Nat.div_add_mod' _ _).symm, Nat.mod_lt _ (BitVec.toNat_pos_of_ne_zero hb)⟩

/-- Settles O37: the undefined cases draw twice and go on. -/
theorem undefinedDivisionGoesOn : Obligations.UndefinedDivisionGoesOn := by
  refine ⟨fun s rs rt h => ?_, fun s rs rt h => ?_⟩
  · rw [exec_div_of_undefined (divUndefined_iff.2 h)]
    exact drawHiLo_completes s
  · rw [exec_divu_of_undefined (divuUndefined_iff.2 h)]
    exact drawHiLo_completes s

/-- Settles O38: the value written is the one `HI` or `LO` holds. -/
theorem moveFromHiLoCopies : Obligations.MoveFromHiLoCopies :=
  ⟨fun s rd => writeAndAdvance_completes s rd s.hi _ rfl, fun s rd => writeAndAdvance_completes s rd s.lo _ rfl⟩

end Sys2Proof.Machine
end

section
/-! SUPPORT. Bit `k` of the operands and results of 41_logical: the zero-extended immediate (R113), the complement of or
(R112), and the three shifts (R114). -/

namespace Sys2Proof.Machine

/-! ### Bitwise operations -/

/-- The immediate stands in the lower half, zeros in the upper (R113). -/
theorem getLsbD_zextImm_halves (imm : Imm16) (k : Nat) :
    (zextImm imm).getLsbD k = if k < 16 then imm.getLsbD k else false := by
  rw [getLsbD_zextImm]
  split
  · simp [show k < 32 by omega]
  · simp [BitVec.getLsbD_of_ge imm k (by omega)]

theorem getLsbD_nor (a b : Word) {k : Nat} (hk : k < 32) :
    (~~~(a ||| b)).getLsbD k = !(a.getLsbD k || b.getLsbD k) := by
  rw [BitVec.getLsbD_not, BitVec.getLsbD_or, decide_eq_true hk, Bool.true_and]

/-! ### Shifts -/

theorem getLsbD_shiftLeft_word (a : Word) (n : Nat) {k : Nat} (hk : k < 32) :
    (a <<< n).getLsbD k = if k < n then false else a.getLsbD (k - n) := by
  rw [BitVec.getLsbD_shiftLeft, decide_eq_true hk]
  split <;> simp [*]

theorem getLsbD_ushiftRight_word (a : Word) (n k : Nat) :
    (a >>> n).getLsbD k = if k + n < 32 then a.getLsbD (k + n) else false := by
  rw [BitVec.getLsbD_ushiftRight, Nat.add_comm n k]
  split
  · rfl
  · exact BitVec.getLsbD_of_ge a _ (by omega)

theorem getLsbD_sshiftRight_word (a : Word) (n : Nat) {k : Nat} (hk : k < 32) :
    (a.sshiftRight n).getLsbD k = if k + n < 32 then a.getLsbD (k + n) else a.getLsbD 31 := by
  rw [BitVec.getLsbD_sshiftRight, BitVec.msb_eq_getLsbD_last, Nat.add_comm n k]
  simp [show ¬32 ≤ k by omega]

/-- A variable shift is the constant shift by the low five bits of `x[rs]` (R114, R130 to R132). -/
theorem exec_variableShift_eq (s : State) (rd rt rs : RegIdx) :
    exec (.sllv rd rt rs) s = exec (.sll rd rt ((s.readReg rs).extractLsb' 0 5)) s ∧
    exec (.srlv rd rt rs) s = exec (.srl rd rt ((s.readReg rs).extractLsb' 0 5)) s ∧
    exec (.srav rd rt rs) s = exec (.sra rd rt ((s.readReg rs).extractLsb' 0 5)) s :=
  ⟨rfl, rfl, rfl⟩

end Sys2Proof.Machine
end

section
/-! The statements of 41_logical. -/

namespace Sys2Proof.Machine

/-- Settles O39: each bit of the result is the operation on the operands' bits. -/
theorem logicalRegisterForms : Obligations.LogicalRegisterForms := by
  intro s rd rs rt
  refine ⟨?_, ?_, ?_, ?_⟩ <;> refine writeAndAdvance_completes s rd _ _ fun k hk => ?_
  · exact BitVec.getLsbD_and
  · exact BitVec.getLsbD_or
  · exact BitVec.getLsbD_xor
  · exact getLsbD_nor _ _ hk

/-- Settles O40: above bit 15 the immediate's bit is 0, which clears under and, and keeps under or and exclusive or. -/
theorem logicalImmediateForms : Obligations.LogicalImmediateForms := by
  intro s rt rs imm
  refine ⟨?_, ?_, ?_⟩ <;> refine writeAndAdvance_completes s rt _ _ fun k _ => ?_
  · rw [BitVec.getLsbD_and, getLsbD_zextImm_halves, apply_ite (_ && ·), Bool.and_false]
  · rw [BitVec.getLsbD_or, getLsbD_zextImm_halves, apply_ite (_ || ·), Bool.or_false]
  · rw [BitVec.getLsbD_xor, getLsbD_zextImm_halves, apply_ite (_ ^^ ·), Bool.xor_false]

/-- Settles O41: the bits of the three shifts of a word. -/
theorem shiftsByConstant : Obligations.ShiftsByConstant := by
  intro s rd rt shamt
  refine ⟨?_, ?_, ?_⟩ <;> refine writeAndAdvance_completes s rd _ _ fun k hk => ?_
  · exact getLsbD_shiftLeft_word _ _ hk
  · exact getLsbD_ushiftRight_word _ _ k
  · exact getLsbD_sshiftRight_word _ _ hk

/-- Settles O42: the constant shifts, by an amount that is `x[rs]` modulo 32. -/
theorem shiftsByRegister : Obligations.ShiftsByRegister := by
  intro s rd rt rs
  obtain ⟨hsllv, hsrlv, hsrav⟩ := exec_variableShift_eq s rd rt rs
  dsimp only
  rw [hsllv, hsrlv, hsrav, ← shiftAmount_eq]
  exact shiftsByConstant s rd rt ((s.readReg rs).extractLsb' 0 5)

end Sys2Proof.Machine
end

section
/-! SUPPORT. The word of `lui` (42_data_transfer R151), and the low bytes of a register that a store puts in memory, or
the fault of an access that is not accepted (R142 to R145). -/

namespace Sys2Proof.Machine

/-- The immediate above sixteen zeros is the immediate times 2^16 (R151). -/
theorem toNat_upperImm (imm : Imm16) : (upperImm imm).toNat = imm.toNat * 2 ^ 16 := by
  rw [upperImm, BitVec.toNat_append, BitVec.toNat_ofNat, Nat.zero_mod, Nat.or_zero, Nat.shiftLeft_eq]

theorem bits_eq_eight_mul_bytes (w : Width) : w.bits = 8 * w.bytes := by
  cases w <;> rfl

/-- A byte of the low bits of a word that an access moves is that byte of the word. -/
theorem lowBits_byte (x : Word) {w : Width} {k : Nat} (hk : k < w.bytes) :
    (x.extractLsb' 0 w.bits).extractLsb' (8 * k) 8 = x.extractLsb' (8 * k) 8 := by
  have hle : 8 * k + 8 ≤ w.bits := by
    rw [bits_eq_eight_mul_bytes]
    omega
  rw [extractLsb'_extractLsb'_add x hle, Nat.zero_add]

variable {s : State} {w : Width} {rs : RegIdx} {imm : Imm16}

/-- An aligned, accepted store of the low bits of a word puts the word's low bytes at the effective address, and changes
no other byte (20_memory R42). -/
theorem store_completesStoring (x : Word) (hs : s.wf = true)
    (hal : (s.effectiveAddress rs imm).toNat % w.bytes = 0)
    (hacc : ∀ j : Nat, j < w.bytes → Params.memValid s.params ((s.effectiveAddress rs imm).toNat + j) = true) :
    CompletesStoring s (s.store w (x.extractLsb' 0 w.bits) imm rs) (s.effectiveAddress rs imm).toNat
      w.bytes x := by
  rw [store_next (accessCheck_accepted .store hal hacc)]
  refine ⟨_, rfl, fun i hi => ?_, fun c hc => ?_, fun _ => rfl, ⟨rfl, rfl⟩, ⟨rfl, rfl, rfl⟩, rfl, rfl⟩
  · rw [read_writeValue hs hal, if_pos (by omega), Nat.add_sub_cancel_left]
    cases s.params.endian with
    | big => rw [byteOf_big, lowBits_byte x (by omega)]
    | little => exact lowBits_byte x hi
  · rw [read_writeValue hs hal, if_neg hc]

/-- `sw` stores the low 32 bits of `x[rt]`, which are all of it (R143). -/
theorem exec_sw_eq_store (s : State) (rt rs : RegIdx) (imm : Imm16) :
    exec (.sw rt imm rs) s = s.store .word ((s.readReg rt).extractLsb' 0 Width.word.bits) imm rs :=
  congrArg (s.store .word · imm rs) BitVec.extractLsb'_eq_self.symm

/-- An aligned access that is not accepted has a refused byte, and takes BusError. -/
theorem exec_faults_of_not_accepted {i : Instr} {k : AccessKind} (hi : memoryAccess i = some (k, w, rs, imm))
    (hal : (s.effectiveAddress rs imm).toNat % w.bytes = 0)
    (hacc : ¬∀ j : Nat, j < w.bytes → Params.memValid s.params ((s.effectiveAddress rs imm).toNat + j) = true) :
    Faults s (exec i s) (.busError k) (some (s.effectiveAddress rs imm)) :=
  have href := allValid_false_iff.1 (Bool.eq_false_iff.2 (mt allValid_iff.1 hacc))
  exec_faults_of_check_some hi (accessCheck_refused k hal href)

end Sys2Proof.Machine
end

section
/-! The statements of 42_data_transfer. -/

namespace Sys2Proof.Machine

/-- Settles O31: the sum modulo 2^32 of the base and the sign-extended displacement. -/
theorem effectiveAddressWraps : Obligations.EffectiveAddressWraps :=
  effectiveAddress_eq

/-- Settles O43: a load writes the extension of what it reads, and either extension keeps the number it extends. -/
theorem loadsWriteWhatIsRead : Obligations.LoadsWriteWhatIsRead := by
  refine ⟨fun s rt rs imm m h => ?_, fun s rt rs imm m h => ⟨?_, ?_⟩, fun s rt rs imm m h => ⟨?_, ?_⟩⟩ <;>
    refine load_completes h _ ?_
  · rfl
  · exact BitVec.toInt_signExtend_of_le (by decide)
  · exact BitVec.toNat_setWidth_of_le (by decide)
  · exact BitVec.toInt_signExtend_of_le (by decide)
  · exact BitVec.toNat_setWidth_of_le (by decide)

/-- Settles O46: past the alignment check, the refused byte raises BusError. -/
theorem refusedAccessFaults : Obligations.RefusedAccessFaults :=
  fun _ _ k _ _ _ j hi hal hj href => exec_faults_of_check_some hi (accessCheck_refused k hal ⟨j, hj, href⟩)

/-- Settles O44: an aligned, accepted store puts the low bytes in memory; of the others, the alignment check takes the
misaligned and `MEM_VALID` the refused. -/
theorem storesWriteTheirBytes : Obligations.StoresWriteTheirBytes := by
  intro s rt rs imm hs a accepted
  have misaligned (i : Instr) (w : Width) := misalignedAccessFaults.1 i s .store w rs imm
  refine ⟨fun hal hacc => ?_, misaligned _ .word rfl, exec_faults_of_not_accepted (w := .word) rfl,
    store_completesStoring (w := .half) _ hs, misaligned _ .half rfl,
    exec_faults_of_not_accepted (w := .half) rfl,
    store_completesStoring (w := .byte) _ hs (Nat.mod_one _),
    exec_faults_of_not_accepted (w := .byte) rfl (Nat.mod_one _)⟩
  rw [exec_sw_eq_store]
  exact store_completesStoring (w := .word) _ hs hal hacc

/-- Settles O47: the word written is the immediate above sixteen zeros. -/
theorem loadUpperImmediate : Obligations.LoadUpperImmediate :=
  fun s rt imm => writeAndAdvance_completes s rt _ _ (toNat_upperImm imm)

end Sys2Proof.Machine
end

section
/-! SUPPORT. A conditional branch, with and without a link, in the exact terms of 30_encoding R66: its target computed in
the integers, its condition in whatever form the statement has it. -/

namespace Sys2Proof.Machine

/-- A branch goes to the exact place its condition says (43_compare_branch R160). -/
theorem branch_completes_exact (s : State) (imm : Imm16) {taken c : Bool} (h : taken = c) :
    CompletesAt s (s.branch taken imm) (exactBranchPc s imm c) := by
  rw [← h, ← branchPc_eq]
  exact branch_completes s taken imm

/-- A branch that links goes there too, and `$31` receives `pc + 4` whatever the condition (R170, R171). -/
theorem branchAndLink_completes_exact (s : State) (imm : Imm16) {taken c : Bool} (h : taken = c) :
    CompletesLinking s (s.branchAndLink taken imm) linkReg s.nextPc (exactBranchPc s imm c) := by
  rw [← h, ← branchPc_eq]
  exact branchAndLink_completes s taken imm

end Sys2Proof.Machine
end

section
/-! The statements of 43_compare_branch. -/

namespace Sys2Proof.Machine

/-- Settles O20: of all an instruction can do to the run status, keeping it Running is excluded; an access raises
what its two checks raise. -/
theorem onlyNamedInstructionsRaise : Obligations.OnlyNamedInstructionsRaise := by
  intro i s t hs h ht
  rcases exec_status h with hkept | ⟨ho, rfl⟩ | ⟨k, w, rs, imm, r, hi, hr, rfl⟩
  · exact absurd (hkept.trans hs) ht
  · exact .inl ⟨ho, rfl⟩
  · refine .inr ⟨k, w, rs, imm, hi, ?_⟩
    rcases accessCheck_some.1 hr with ⟨-, rfl⟩ | ⟨-, -, rfl⟩
    · exact .inl rfl
    · exact .inr rfl

/-- Settles O48: the condition of `beq` is the equality of the words, that of `bne` its negation. -/
theorem branchOnEquality : Obligations.BranchOnEquality := by
  intro s rs rt imm
  refine ⟨fun heq => ⟨?_, ?_⟩, fun hne => ⟨?_, ?_⟩⟩
  · exact branch_completes_exact s imm (c := true) (beq_iff_eq.2 heq)
  · exact branch_completes_exact s imm (c := false) (bne_eq_false_iff_eq.2 heq)
  · exact branch_completes_exact s imm (c := false) (beq_eq_false_iff_ne.2 hne)
  · exact branch_completes_exact s imm (c := true) (bne_iff_ne.2 hne)

/-- Settles O49: each signed comparison with zero is read off the top bit and whether the word is zero (R162). -/
theorem branchOnSign : Obligations.BranchOnSign := fun s _ imm =>
  ⟨branch_completes_exact s imm (leZero_eq_msb _), branch_completes_exact s imm (gtZero_eq_msb _),
    branch_completes_exact s imm (ltZero_eq_msb _), branch_completes_exact s imm (geZero_eq_msb _)⟩

/-- Settles O50: the condition is computed from the state before the link is written, so it is on the old `x[rs]`
for `$31` too. -/
theorem branchAndLink : Obligations.BranchAndLink := fun s _ imm =>
  ⟨branchAndLink_completes_exact s imm (ltZero_eq_msb _), branchAndLink_completes_exact s imm (geZero_eq_msb _)⟩

end Sys2Proof.Machine
end

section
/-! The comparisons of 44_jump_compare. -/

namespace Sys2Proof.Machine

/-- The word a comparison writes is 1 where the comparison holds and 0 where it does not (44_jump_compare R180). -/
theorem toNat_setWord_decide (p : Prop) [Decidable p] : (setWord (decide p)).toNat = if p then 1 else 0 := by
  by_cases h : p
  · rw [decide_eq_true h, if_pos h]
    rfl
  · rw [decide_eq_false h, if_neg h]
    rfl

/-- Settles O51: both instructions write the word of a comparison, `slt` of the integers the operands stand for,
`sltu` of the natural numbers. -/
theorem setOnLessThan : Obligations.SetOnLessThan := fun s rd _ _ =>
  ⟨writeAndAdvance_completes s rd _ _ (toNat_setWord_decide _),
    writeAndAdvance_completes s rd _ _ (toNat_setWord_decide _)⟩

end Sys2Proof.Machine
end

section
/-! SUPPORT. Which states step: a terminal status stops the machine; executing an instruction, and a step from a Running
state, always answer a next state, and one that is not Running has ended the run or taken a fault. -/

namespace Sys2Proof.Machine

/-- A Faulted state has no further step (60_exceptions R210). -/
theorem step_of_faulted {s : State} {cause : Cause} {epc : Word} {info : Option Word}
    (hs : s.status = .faulted cause epc info) : step s = .fault (.stoppedByFault cause epc info) := by
  rw [step, hs]

/-- An Ended state has no further step (60_exceptions R225). -/
theorem step_of_ended {s : State} (hs : s.status = .ended) : step s = .fault .runIsOver := by
  rw [step, hs]

/-- A step at `END_PC` ends the run (60_exceptions R225). -/
theorem step_of_endPc {s : State} (hs : s.status = .running) (hp : s.pc = s.params.endPc) :
    step s = .next s.endRun := by
  rcases step_cases hs with ⟨-, e⟩ | ⟨_, hne, -⟩ | ⟨_, hne, -⟩
  · exact e
  · exact absurd hp hne
  · exact absurd hp hne

/-- Each of the effects an instruction can have makes a next state. -/
theorem exists_exec_eq_next (i : Instr) (s : State) : ∃ t : State, exec i s = .next t := by
  rcases exec_cases i s with ⟨_, _, -, e⟩ | ⟨_, _, _, -, e⟩ | ⟨_, _, _, _, _, -, -, -, e⟩ | ⟨_, -, e⟩ |
    ⟨_, -, -, e⟩ | ⟨-, e⟩ | ⟨_, _, _, _, _, -, -, e⟩ <;> exact ⟨_, e⟩

/-- The machine does not get stuck in a Running state (60_exceptions R227). -/
theorem exists_step_eq_next {s : State} (hs : s.status = .running) : ∃ t : State, step s = .next t := by
  rcases step_cases hs with ⟨-, e⟩ | ⟨r, -, -, e⟩ | ⟨i, -, -, e⟩
  · exact ⟨_, e⟩
  · exact ⟨_, e⟩
  · rw [e]
    exact exists_exec_eq_next i s

/-- A step leaves the machine Running, or only ends the run, or only takes a fault; an executed instruction takes
its fault in the state it started from, none of its effects done (60_exceptions R210, R225). -/
theorem step_status {s t : State} (h : step s = .next t) :
    t.status = .running ∨ t = s.endRun ∨ ∃ r : Raise, t = s.takeFault r := by
  have hs : s.status = .running := running_of_step h
  rcases step_cases hs with ⟨-, e⟩ | ⟨r, -, -, e⟩ | ⟨i, -, -, e⟩
  · cases e.symm.trans h
    exact .inr (.inl rfl)
  · cases e.symm.trans h
    exact .inr (.inr ⟨r, rfl⟩)
  · rcases exec_status (e.symm.trans h) with hkept | ⟨-, rfl⟩ | ⟨_, _, _, _, r, -, -, rfl⟩
    · exact .inl (hkept.trans hs)
    · exact .inr (.inr ⟨_, rfl⟩)
    · exact .inr (.inr ⟨r, rfl⟩)

end Sys2Proof.Machine
end

section
/-! The statements of 60_exceptions. -/

namespace Sys2Proof.Machine

/-- Settles O19: of the three ways a step can leave the status, only a fault taken in the old state makes it Faulted. -/
theorem faultsArePrecise : Obligations.FaultsArePrecise := by
  intro s t cause epc info _ h ht
  have hstop : step t = .fault (.stoppedByFault cause epc info) := step_of_faulted ht
  rcases step_status h with hrun | rfl | ⟨r, rfl⟩
  · cases hrun.symm.trans ht
  · cases ht
  · cases ht
    exact ⟨rfl, rfl, hstop⟩

/-- Settles O17, by all that an instruction can do. -/
theorem everyInstructionAnswersANextState : Obligations.EveryInstructionAnswersANextState :=
  exists_exec_eq_next

/-- Settles O18: progress of a Running state, and the two terminal statuses. -/
theorem onlyRunningStatesStep : Obligations.OnlyRunningStatesStep := fun _ =>
  ⟨exists_step_eq_next, fun _ _ _ => step_of_faulted, step_of_ended⟩

/-- Settles O21: `END_PC` is compared before anything is fetched, and ending the run is all the step does. -/
theorem runEndsAtEndPc : Obligations.RunEndsAtEndPc := fun _ hs hp =>
  ⟨step_of_endPc hs hp, step_of_ended rfl⟩

end Sys2Proof.Machine
end
